-- ==== Sys2Proof/Word.lean ====
section
/-! DEFINITION. The word types of the machine (spec/00_scope.md R5, R11): bytes, 16-bit words and the operand
fields of an opcode. Every value is unsigned (R11). -/

namespace Sys2Proof

/-- A register or memory byte (R5, REG_WIDTH). -/
abbrev Byte := BitVec 8

/-- The width of I, PC, SP and of an opcode (R5). -/
abbrev Word := BitVec 16

/-- A register index, the content of an X or Y field (10_state.md R20, 30_encoding.md R92). -/
abbrev RegIdx := BitVec 4

/-- The N field: a 4-bit literal (R92). -/
abbrev Nibble := BitVec 4

/-- The NNN field: a 12-bit address (R92). -/
abbrev Addr := BitVec 12

/-- `VF`, register index 15, the flags register (10_state.md R21). -/
abbrev VF : RegIdx := 15#4

end Sys2Proof
end

