-- ==== Sys2Proof/Syntax.lean ====
section
/-! DEFINITION. The instructions: one constructor per row of spec/opcode_table.json (30_encoding.md R96), with the operand fields
that the row's format carries (R93), each of exactly the field's width (R94). -/

namespace Sys2Proof

/-- The 34 instructions of R96, in the table's order. `x`, `y`: register indices; `nn`: 8-bit literal; `n`: 4-bit literal;
`nnn`: 12-bit address. -/
inductive Instr where
  /-- CLR, 00E0 (R190) -/
  | clr
  /-- RTS, 00EE (R127) -/
  | rts
  /-- JUMP addr, 1NNN (R125) -/
  | jump (nnn : Addr)
  /-- CALL addr, 2NNN (R126) -/
  | call (nnn : Addr)
  /-- SKE Vx, byte, 3XNN (R140) -/
  | ske (x : RegIdx) (nn : Byte)
  /-- SKNE Vx, byte, 4XNN (R141) -/
  | skne (x : RegIdx) (nn : Byte)
  /-- SKRE Vx, Vy, 5XY0 (R142) -/
  | skre (x y : RegIdx)
  /-- LOAD Vx, byte, 6XNN (R150) -/
  | load (x : RegIdx) (nn : Byte)
  /-- ADDB Vx, byte, 7XNN (R151) -/
  | addb (x : RegIdx) (nn : Byte)
  /-- MOVE Vx, Vy, 8XY0 (R152) -/
  | move (x y : RegIdx)
  /-- OR Vx, Vy, 8XY1 (R153) -/
  | or (x y : RegIdx)
  /-- AND Vx, Vy, 8XY2 (R154) -/
  | and (x y : RegIdx)
  /-- XOR Vx, Vy, 8XY3 (R155) -/
  | xor (x y : RegIdx)
  /-- ADD Vx, Vy, 8XY4 (R156) -/
  | add (x y : RegIdx)
  /-- SUB Vx, Vy, 8XY5 (R157) -/
  | sub (x y : RegIdx)
  /-- SHR Vx, Vy, 8XY6 (R170) -/
  | shr (x y : RegIdx)
  /-- SUBN Vx, Vy, 8XY7 (R158) -/
  | subn (x y : RegIdx)
  /-- SHL Vx, Vy, 8XYE (R171) -/
  | shl (x y : RegIdx)
  /-- SKRNE Vx, Vy, 9XY0 (R143) -/
  | skrne (x y : RegIdx)
  /-- LOADI addr, ANNN (R230) -/
  | loadi (nnn : Addr)
  /-- JUMPI addr, BNNN (R128) -/
  | jumpi (nnn : Addr)
  /-- RAND Vx, byte, CXNN (R180) -/
  | rand (x : RegIdx) (nn : Byte)
  /-- DRAW Vx, Vy, nibble, DXYN (R191) -/
  | draw (x y : RegIdx) (n : Nibble)
  /-- SKPR Vx, EX9E (R250) -/
  | skpr (x : RegIdx)
  /-- SKUP Vx, EXA1 (R251) -/
  | skup (x : RegIdx)
  /-- MOVED Vx, FX07 (R211) -/
  | moved (x : RegIdx)
  /-- KEYD Vx, FX0A (R252) -/
  | keyd (x : RegIdx)
  /-- LOADD Vx, FX15 (R212) -/
  | loadd (x : RegIdx)
  /-- LOADS Vx, FX18 (R253) -/
  | loads (x : RegIdx)
  /-- ADDI Vx, FX1E (R231) -/
  | addi (x : RegIdx)
  /-- LDSPR Vx, FX29 (R195) -/
  | ldspr (x : RegIdx)
  /-- BCD Vx, FX33 (R232) -/
  | bcd (x : RegIdx)
  /-- STOR Vx, FX55 (R233) -/
  | stor (x : RegIdx)
  /-- READ Vx, FX65 (R234) -/
  | read (x : RegIdx)
  deriving DecidableEq, Repr

end Sys2Proof
end

