-- ==== Sys2Proof/WellFormed.lean ====
section
/-! DEFINITION. Well-formed instruction terms. An `Instr` carries fields of exactly their width, so every `Instr` is well-formed; what can
be ill-formed is the term the encoder of R103 and R104 is given: a mnemonic with a list of operand VALUES, as the assembler parses
them (spec/30_encoding.md R96, R104; 10_state.md R37). The checks: the arity of R96, and the range of each operand's kind. -/

namespace Sys2Proof

/-- The 34 mnemonics of R96, in the table's order. -/
inductive Mnemonic where
  | clr | rts | jump | call | ske | skne | skre | load | addb | move | or | and | xor | add | sub | shr | subn | shl | skrne | loadi | jumpi | rand | draw | skpr | skup | moved | keyd | loadd | loads | addi | ldspr | bcd | stor | read
  deriving DecidableEq, Repr

/-- The operand kinds of the column "operands" of R96 (R100): register, 8-bit literal, 4-bit literal, 12-bit address. -/
inductive OperandKind where
  | reg | byte | nibble | addr
  deriving DecidableEq, Repr

/-- The number of values a kind has: operand values of kind `k` are below `k.bound` (R104). -/
def OperandKind.bound : OperandKind → Nat
  | .reg => 16
  | .byte => 256
  | .nibble => 16
  | .addr => 4096

/-- The operand kinds of each mnemonic, in order (R96, column "operands"); their number is the arity. -/
def Mnemonic.operands : Mnemonic → List OperandKind
  | .clr => []
  | .rts => []
  | .jump => [.addr]
  | .call => [.addr]
  | .ske => [.reg, .byte]
  | .skne => [.reg, .byte]
  | .skre => [.reg, .reg]
  | .load => [.reg, .byte]
  | .addb => [.reg, .byte]
  | .move => [.reg, .reg]
  | .or => [.reg, .reg]
  | .and => [.reg, .reg]
  | .xor => [.reg, .reg]
  | .add => [.reg, .reg]
  | .sub => [.reg, .reg]
  | .shr => [.reg, .reg]
  | .subn => [.reg, .reg]
  | .shl => [.reg, .reg]
  | .skrne => [.reg, .reg]
  | .loadi => [.addr]
  | .jumpi => [.addr]
  | .rand => [.reg, .byte]
  | .draw => [.reg, .reg, .nibble]
  | .skpr => [.reg]
  | .skup => [.reg]
  | .moved => [.reg]
  | .keyd => [.reg]
  | .loadd => [.reg]
  | .loads => [.reg]
  | .addi => [.reg]
  | .ldspr => [.reg]
  | .bcd => [.reg]
  | .stor => [.reg]
  | .read => [.reg]

/-- The operand count the assembler demands (R96, column "arity"). -/
def Mnemonic.arity (m : Mnemonic) : Nat := m.operands.length

/-- An instruction term: a mnemonic and operand values already parsed (R104). -/
structure Term where
  mnemonic : Mnemonic
  values : List Nat
  deriving DecidableEq, Repr

/-- Each value fits the field of its kind (R37, R104). -/
def valuesFit : List OperandKind → List Nat → Bool
  | k :: ks, v :: vs => decide (v < k.bound) && valuesFit ks vs
  | _, _ => true

/-- A well-formed term: the operand count is the arity, and every value fits its field. -/
def Term.wellFormed (t : Term) : Bool :=
  decide (t.values.length = t.mnemonic.arity) && valuesFit t.mnemonic.operands t.values

/-- The term an instruction stands for: its mnemonic and its operands in nibble order (R94). -/
def Instr.toTerm : Instr → Term
  | .clr => ⟨.clr, []⟩
  | .rts => ⟨.rts, []⟩
  | .jump nnn => ⟨.jump, [nnn.toNat]⟩
  | .call nnn => ⟨.call, [nnn.toNat]⟩
  | .ske x nn => ⟨.ske, [x.toNat, nn.toNat]⟩
  | .skne x nn => ⟨.skne, [x.toNat, nn.toNat]⟩
  | .skre x y => ⟨.skre, [x.toNat, y.toNat]⟩
  | .load x nn => ⟨.load, [x.toNat, nn.toNat]⟩
  | .addb x nn => ⟨.addb, [x.toNat, nn.toNat]⟩
  | .move x y => ⟨.move, [x.toNat, y.toNat]⟩
  | .or x y => ⟨.or, [x.toNat, y.toNat]⟩
  | .and x y => ⟨.and, [x.toNat, y.toNat]⟩
  | .xor x y => ⟨.xor, [x.toNat, y.toNat]⟩
  | .add x y => ⟨.add, [x.toNat, y.toNat]⟩
  | .sub x y => ⟨.sub, [x.toNat, y.toNat]⟩
  | .shr x y => ⟨.shr, [x.toNat, y.toNat]⟩
  | .subn x y => ⟨.subn, [x.toNat, y.toNat]⟩
  | .shl x y => ⟨.shl, [x.toNat, y.toNat]⟩
  | .skrne x y => ⟨.skrne, [x.toNat, y.toNat]⟩
  | .loadi nnn => ⟨.loadi, [nnn.toNat]⟩
  | .jumpi nnn => ⟨.jumpi, [nnn.toNat]⟩
  | .rand x nn => ⟨.rand, [x.toNat, nn.toNat]⟩
  | .draw x y n => ⟨.draw, [x.toNat, y.toNat, n.toNat]⟩
  | .skpr x => ⟨.skpr, [x.toNat]⟩
  | .skup x => ⟨.skup, [x.toNat]⟩
  | .moved x => ⟨.moved, [x.toNat]⟩
  | .keyd x => ⟨.keyd, [x.toNat]⟩
  | .loadd x => ⟨.loadd, [x.toNat]⟩
  | .loads x => ⟨.loads, [x.toNat]⟩
  | .addi x => ⟨.addi, [x.toNat]⟩
  | .ldspr x => ⟨.ldspr, [x.toNat]⟩
  | .bcd x => ⟨.bcd, [x.toNat]⟩
  | .stor x => ⟨.stor, [x.toNat]⟩
  | .read x => ⟨.read, [x.toNat]⟩

/-- The mnemonic of an instruction (R96). -/
def Instr.mnemonic (i : Instr) : Mnemonic := i.toTerm.mnemonic

/-- An instruction is well-formed when its term is (it always is: Laws/Encoding.lean). -/
def Instr.wellFormed (i : Instr) : Bool := i.toTerm.wellFormed

end Sys2Proof
end

