-- ==== Sys2Proof/Decode.lean ====
section
/-! DEFINITION. The instruction table (spec/30_encoding.md R96), the decoder that searches it by mask and match (R95, R123), and the
encoder written from the same table (R104). Both derive from the one table (00_scope.md R10). -/

namespace Sys2Proof

/-! ### The fields of an opcode (R92) -/

/-- X: bits 11:8. -/
def fieldX (op : Word) : RegIdx := op.extractLsb' 8 4

/-- Y: bits 7:4. -/
def fieldY (op : Word) : RegIdx := op.extractLsb' 4 4

/-- N: bits 3:0. -/
def fieldN (op : Word) : Nibble := op.extractLsb' 0 4

/-- NN: bits 7:0. -/
def fieldNN (op : Word) : Byte := op.extractLsb' 0 8

/-- NNN: bits 11:0. -/
def fieldNNN (op : Word) : Addr := op.extractLsb' 0 12

/-! ### The table (R93, R96) -/

/-- The six formats of R93. -/
inductive Format where
  | f0 | fa | fxb | fxy | fxyn | fx
  deriving DecidableEq, Repr

/-- One row of R96: `mask` has a 1 at every fixed bit, `value` is the column "match". -/
structure Row where
  mnemonic : Mnemonic
  format : Format
  value : Word
  mask : Word
  deriving DecidableEq, Repr

/-- The opcode map of R96: the row of each mnemonic. -/
def rowOf (m : Mnemonic) : Row :=
  match m with
  | .clr => ⟨.clr, .f0, 0x00E0#16, 0xFFFF#16⟩
  | .rts => ⟨.rts, .f0, 0x00EE#16, 0xFFFF#16⟩
  | .jump => ⟨.jump, .fa, 0x1000#16, 0xF000#16⟩
  | .call => ⟨.call, .fa, 0x2000#16, 0xF000#16⟩
  | .ske => ⟨.ske, .fxb, 0x3000#16, 0xF000#16⟩
  | .skne => ⟨.skne, .fxb, 0x4000#16, 0xF000#16⟩
  | .skre => ⟨.skre, .fxy, 0x5000#16, 0xF00F#16⟩
  | .load => ⟨.load, .fxb, 0x6000#16, 0xF000#16⟩
  | .addb => ⟨.addb, .fxb, 0x7000#16, 0xF000#16⟩
  | .move => ⟨.move, .fxy, 0x8000#16, 0xF00F#16⟩
  | .or => ⟨.or, .fxy, 0x8001#16, 0xF00F#16⟩
  | .and => ⟨.and, .fxy, 0x8002#16, 0xF00F#16⟩
  | .xor => ⟨.xor, .fxy, 0x8003#16, 0xF00F#16⟩
  | .add => ⟨.add, .fxy, 0x8004#16, 0xF00F#16⟩
  | .sub => ⟨.sub, .fxy, 0x8005#16, 0xF00F#16⟩
  | .shr => ⟨.shr, .fxy, 0x8006#16, 0xF00F#16⟩
  | .subn => ⟨.subn, .fxy, 0x8007#16, 0xF00F#16⟩
  | .shl => ⟨.shl, .fxy, 0x800E#16, 0xF00F#16⟩
  | .skrne => ⟨.skrne, .fxy, 0x9000#16, 0xF00F#16⟩
  | .loadi => ⟨.loadi, .fa, 0xA000#16, 0xF000#16⟩
  | .jumpi => ⟨.jumpi, .fa, 0xB000#16, 0xF000#16⟩
  | .rand => ⟨.rand, .fxb, 0xC000#16, 0xF000#16⟩
  | .draw => ⟨.draw, .fxyn, 0xD000#16, 0xF000#16⟩
  | .skpr => ⟨.skpr, .fx, 0xE09E#16, 0xF0FF#16⟩
  | .skup => ⟨.skup, .fx, 0xE0A1#16, 0xF0FF#16⟩
  | .moved => ⟨.moved, .fx, 0xF007#16, 0xF0FF#16⟩
  | .keyd => ⟨.keyd, .fx, 0xF00A#16, 0xF0FF#16⟩
  | .loadd => ⟨.loadd, .fx, 0xF015#16, 0xF0FF#16⟩
  | .loads => ⟨.loads, .fx, 0xF018#16, 0xF0FF#16⟩
  | .addi => ⟨.addi, .fx, 0xF01E#16, 0xF0FF#16⟩
  | .ldspr => ⟨.ldspr, .fx, 0xF029#16, 0xF0FF#16⟩
  | .bcd => ⟨.bcd, .fx, 0xF033#16, 0xF0FF#16⟩
  | .stor => ⟨.stor, .fx, 0xF055#16, 0xF0FF#16⟩
  | .read => ⟨.read, .fx, 0xF065#16, 0xF0FF#16⟩

/-- The mnemonics in the table's order, classes 0 to 7. -/
def mnemonicsLow : List Mnemonic := [.clr, .rts, .jump, .call, .ske, .skne, .skre, .load, .addb]

/-- The mnemonics in the table's order, classes 8 to F. -/
def mnemonicsHigh : List Mnemonic := [
  .move, .or, .and, .xor, .add, .sub, .shr, .subn, .shl,
  .skrne, .loadi, .jumpi, .rand, .draw, .skpr, .skup, .moved, .keyd,
  .loadd, .loads, .addi, .ldspr, .bcd, .stor, .read]

/-- The instruction table: the 34 rows of R96, in its order. -/
def table : List Row := (mnemonicsLow ++ mnemonicsHigh).map rowOf

/-- A row matches `op` iff `op & mask = match` (R95). -/
def Row.matches (r : Row) (op : Word) : Bool := op &&& r.mask == r.value

/-- The row `op` matches, if any (R95, R123). -/
def findRow (op : Word) : Option Row := table.find? (·.matches op)

/-! ### Decode (R95, R123) -/

/-- Why a word or a byte sequence is no instruction. -/
inductive Reject where
  /-- `op` matches no row of R96: illegal (R98). -/
  | unmatched (op : Word)
  /-- Fewer than the two bytes of an instruction are given (R90). -/
  | truncated
  deriving DecidableEq, Repr

/-- The instruction of a mnemonic with the operand fields cut from `op` (R92, R123). -/
def instrOf (m : Mnemonic) (op : Word) : Instr :=
  match m with
  | .clr => .clr
  | .rts => .rts
  | .jump => .jump (fieldNNN op)
  | .call => .call (fieldNNN op)
  | .ske => .ske (fieldX op) (fieldNN op)
  | .skne => .skne (fieldX op) (fieldNN op)
  | .skre => .skre (fieldX op) (fieldY op)
  | .load => .load (fieldX op) (fieldNN op)
  | .addb => .addb (fieldX op) (fieldNN op)
  | .move => .move (fieldX op) (fieldY op)
  | .or => .or (fieldX op) (fieldY op)
  | .and => .and (fieldX op) (fieldY op)
  | .xor => .xor (fieldX op) (fieldY op)
  | .add => .add (fieldX op) (fieldY op)
  | .sub => .sub (fieldX op) (fieldY op)
  | .shr => .shr (fieldX op) (fieldY op)
  | .subn => .subn (fieldX op) (fieldY op)
  | .shl => .shl (fieldX op) (fieldY op)
  | .skrne => .skrne (fieldX op) (fieldY op)
  | .loadi => .loadi (fieldNNN op)
  | .jumpi => .jumpi (fieldNNN op)
  | .rand => .rand (fieldX op) (fieldNN op)
  | .draw => .draw (fieldX op) (fieldY op) (fieldN op)
  | .skpr => .skpr (fieldX op)
  | .skup => .skup (fieldX op)
  | .moved => .moved (fieldX op)
  | .keyd => .keyd (fieldX op)
  | .loadd => .loadd (fieldX op)
  | .loads => .loads (fieldX op)
  | .addi => .addi (fieldX op)
  | .ldspr => .ldspr (fieldX op)
  | .bcd => .bcd (fieldX op)
  | .stor => .stor (fieldX op)
  | .read => .read (fieldX op)

/-- Decode one opcode: total, and an opcode that matches no row is rejected by name (R95). -/
def decode (op : Word) : Except Reject Instr :=
  match findRow op with
  | some r => .ok (instrOf r.mnemonic op)
  | none => .error (.unmatched op)

/-- The opcode made of two bytes, the first the more significant (R91, 20_memory.md R62). -/
def wordOfBytes (hi lo : Byte) : Word := hi ++ lo

/-- Decode the instruction at the head of a byte sequence, total on any bytes: every instruction is two bytes (R90). -/
def decodeBytes : List Byte → Except Reject (Instr × List Byte)
  | hi :: lo :: rest =>
    match decode (wordOfBytes hi lo) with
    | .ok i => .ok (i, rest)
    | .error r => .error r
  | _ => .error .truncated

/-! ### Encode (R104) -/

/-- X in its place: `x<<8`. -/
def placeX (x : RegIdx) : Word := x.setWidth 16 <<< 8

/-- Y in its place: `y<<4`. -/
def placeY (y : RegIdx) : Word := y.setWidth 16 <<< 4

/-- FA: `op = match | nnn`. -/
def encFA (m : Mnemonic) (nnn : Addr) : Word := (rowOf m).value ||| nnn.setWidth 16

/-- FXB: `op = match | x<<8 | nn`. -/
def encFXB (m : Mnemonic) (x : RegIdx) (nn : Byte) : Word := (rowOf m).value ||| placeX x ||| nn.setWidth 16

/-- FXY: `op = match | x<<8 | y<<4`. -/
def encFXY (m : Mnemonic) (x y : RegIdx) : Word := (rowOf m).value ||| placeX x ||| placeY y

/-- FXYN: `op = match | x<<8 | y<<4 | n`. -/
def encFXYN (m : Mnemonic) (x y : RegIdx) (n : Nibble) : Word :=
  (rowOf m).value ||| placeX x ||| placeY y ||| n.setWidth 16

/-- FX: `op = match | x<<8`. -/
def encFX (m : Mnemonic) (x : RegIdx) : Word := (rowOf m).value ||| placeX x

/-- The opcode of an instruction (R104; F0: `op = match`). -/
def encode (i : Instr) : Word :=
  match i with
  | .clr => (rowOf .clr).value
  | .rts => (rowOf .rts).value
  | .jump nnn => encFA .jump nnn
  | .call nnn => encFA .call nnn
  | .ske x nn => encFXB .ske x nn
  | .skne x nn => encFXB .skne x nn
  | .skre x y => encFXY .skre x y
  | .load x nn => encFXB .load x nn
  | .addb x nn => encFXB .addb x nn
  | .move x y => encFXY .move x y
  | .or x y => encFXY .or x y
  | .and x y => encFXY .and x y
  | .xor x y => encFXY .xor x y
  | .add x y => encFXY .add x y
  | .sub x y => encFXY .sub x y
  | .shr x y => encFXY .shr x y
  | .subn x y => encFXY .subn x y
  | .shl x y => encFXY .shl x y
  | .skrne x y => encFXY .skrne x y
  | .loadi nnn => encFA .loadi nnn
  | .jumpi nnn => encFA .jumpi nnn
  | .rand x nn => encFXB .rand x nn
  | .draw x y n => encFXYN .draw x y n
  | .skpr x => encFX .skpr x
  | .skup x => encFX .skup x
  | .moved x => encFX .moved x
  | .keyd x => encFX .keyd x
  | .loadd x => encFX .loadd x
  | .loads x => encFX .loads x
  | .addi x => encFX .addi x
  | .ldspr x => encFX .ldspr x
  | .bcd x => encFX .bcd x
  | .stor x => encFX .stor x
  | .read x => encFX .read x

/-- The high byte of a word, `w[15:8]`. -/
def hiByte (w : Word) : Byte := w.extractLsb' 8 8

/-- The low byte of a word, `w[7:0]`. -/
def loByte (w : Word) : Byte := w.extractLsb' 0 8

/-- The two bytes of an instruction in memory order: `op[15:8]` then `op[7:0]` (R91, R104). -/
def encodeBytes (i : Instr) : List Byte := [hiByte (encode i), loByte (encode i)]

/-- The instruction of a well-formed term; none for an ill-formed one (R103). -/
def Term.toInstr (t : Term) : Option Instr :=
  if t.wellFormed then
    match t.mnemonic, t.values with
    | .clr, [] => some .clr
    | .rts, [] => some .rts
    | .jump, [nnn] => some (.jump (BitVec.ofNat 12 nnn))
    | .call, [nnn] => some (.call (BitVec.ofNat 12 nnn))
    | .ske, [x, nn] => some (.ske (BitVec.ofNat 4 x) (BitVec.ofNat 8 nn))
    | .skne, [x, nn] => some (.skne (BitVec.ofNat 4 x) (BitVec.ofNat 8 nn))
    | .skre, [x, y] => some (.skre (BitVec.ofNat 4 x) (BitVec.ofNat 4 y))
    | .load, [x, nn] => some (.load (BitVec.ofNat 4 x) (BitVec.ofNat 8 nn))
    | .addb, [x, nn] => some (.addb (BitVec.ofNat 4 x) (BitVec.ofNat 8 nn))
    | .move, [x, y] => some (.move (BitVec.ofNat 4 x) (BitVec.ofNat 4 y))
    | .or, [x, y] => some (.or (BitVec.ofNat 4 x) (BitVec.ofNat 4 y))
    | .and, [x, y] => some (.and (BitVec.ofNat 4 x) (BitVec.ofNat 4 y))
    | .xor, [x, y] => some (.xor (BitVec.ofNat 4 x) (BitVec.ofNat 4 y))
    | .add, [x, y] => some (.add (BitVec.ofNat 4 x) (BitVec.ofNat 4 y))
    | .sub, [x, y] => some (.sub (BitVec.ofNat 4 x) (BitVec.ofNat 4 y))
    | .shr, [x, y] => some (.shr (BitVec.ofNat 4 x) (BitVec.ofNat 4 y))
    | .subn, [x, y] => some (.subn (BitVec.ofNat 4 x) (BitVec.ofNat 4 y))
    | .shl, [x, y] => some (.shl (BitVec.ofNat 4 x) (BitVec.ofNat 4 y))
    | .skrne, [x, y] => some (.skrne (BitVec.ofNat 4 x) (BitVec.ofNat 4 y))
    | .loadi, [nnn] => some (.loadi (BitVec.ofNat 12 nnn))
    | .jumpi, [nnn] => some (.jumpi (BitVec.ofNat 12 nnn))
    | .rand, [x, nn] => some (.rand (BitVec.ofNat 4 x) (BitVec.ofNat 8 nn))
    | .draw, [x, y, n] => some (.draw (BitVec.ofNat 4 x) (BitVec.ofNat 4 y) (BitVec.ofNat 4 n))
    | .skpr, [x] => some (.skpr (BitVec.ofNat 4 x))
    | .skup, [x] => some (.skup (BitVec.ofNat 4 x))
    | .moved, [x] => some (.moved (BitVec.ofNat 4 x))
    | .keyd, [x] => some (.keyd (BitVec.ofNat 4 x))
    | .loadd, [x] => some (.loadd (BitVec.ofNat 4 x))
    | .loads, [x] => some (.loads (BitVec.ofNat 4 x))
    | .addi, [x] => some (.addi (BitVec.ofNat 4 x))
    | .ldspr, [x] => some (.ldspr (BitVec.ofNat 4 x))
    | .bcd, [x] => some (.bcd (BitVec.ofNat 4 x))
    | .stor, [x] => some (.stor (BitVec.ofNat 4 x))
    | .read, [x] => some (.read (BitVec.ofNat 4 x))
    | _, _ => none
  else none

/-! ### The host's reading -/

/-- The instruction the decoder reads from an instruction word numbered as spec/opcode_table.json numbers it: one 16-bit word whose bit
15 is the most significant bit of the byte at the lower address (R91). The bits of `w` at and above `nbits` are 0; an
instruction has no bits above 16. -/
def decodeTableWord (nbits w : Nat) : Option Instr :=
  let bits := w % 2 ^ nbits
  let op : Word := BitVec.ofNat 16 bits
  if bits < 65536 then
    match decodeBytes [hiByte op, loByte op] with
    | .ok (i, _) => some i
    | .error _ => none
  else none

end Sys2Proof
end

