-- ==== Sys2Proof/Config.lean ====
section
/-! DEFINITION. What is fixed for the machine by DOC00 itself (spec/00_scope.md R5), and the free values: what the spec leaves open
(R7). The parameters whose value this spec decides (R6) and the timer period are in Machine/Params.lean. -/

namespace Sys2Proof

/-- The type of the argument `elapsedMs` of `step` (R7, 46_timers.md R210): a non-negative rational number of milliseconds,
`num / (denPred + 1)`. Every non-negative rational has this form and no other number has, so the domain restriction of
93_implementation_defined.md U6 holds by construction. -/
structure Millis where
  num : Nat
  denPred : Nat
  deriving DecidableEq, Repr, Inhabited

namespace Config

/-- MEM_SIZE (R5). -/
def memSize : Nat := 4096

/-- ROM_BASE (R5). -/
def romBase : Nat := 0x200

/-- ROM_MAX (R5). -/
def romMax : Nat := 3232

/-- FB_W (R5). -/
def fbWidth : Nat := 64

/-- FB_H (R5). -/
def fbHeight : Nat := 32

/-- PC_RESET (R5). -/
def pcReset : Word := 0x200#16

/-- FREE VALUE: the `elapsedMs` of a step whose argument the queue of State does not give, under no law (R7).
Applied to State's counter of free values. No value of it is known (log 5). -/
opaque freeElapsed : Nat → Millis

/-- FREE VALUE: the byte RAND draws when no seed was given: any byte, under no law (44_random.md R181; log 6).
Applied to State's counter of free values. -/
opaque freeByte : Nat → Byte

/-- OPEN PARAMETER: the generator `G(seed, count)` of 44_random.md R181 wherever R182 does not pin it: one fixed total function,
nothing else known (log 7). -/
opaque unpinnedByte : Int → Nat → Byte

end Config
end Sys2Proof
end

