-- ==== Sys2Proof/Machine/FrameBuffer.lean ====
section
/-! DEFINITION. The frame buffer (spec/10_state.md R28, 20_memory.md R69): 64 x 32 pixels, one bit per pixel as R69 allows, and the XOR
blit of 45_display.md R191 to R193 on it. -/

namespace Sys2Proof.Machine

/-- The 2048 pixels as bits: pixel (x, y) is element `64*y + x` (R28, D26). -/
abbrev FrameBuffer := BitVec 2048

/-- All pixels 0. -/
def FrameBuffer.clear : FrameBuffer := 0#2048

/-- A target (px, py) is in the frame buffer iff `px ≤ 63` and `py ≤ 31` (R193). -/
def inFrame (x y : Nat) : Bool := decide (x < Config.fbWidth) && decide (y < Config.fbHeight)

/-- The element of pixel (x, y) in the flat order (R28). -/
def pixelIndex (x y : Nat) : Nat := Config.fbWidth * y + x

/-- `FB[x, y] = 1`; a coordinate outside the frame buffer names no pixel and reads as 0 here. -/
def FrameBuffer.pixel (fb : FrameBuffer) (x y : Nat) : Bool := inFrame x y && fb.getLsbD (pixelIndex x y)

/-- `FB[x, y] <- FB[x, y] ^ 1`, for a pixel of the frame buffer. -/
def FrameBuffer.flip (fb : FrameBuffer) (x y : Nat) : FrameBuffer := fb ^^^ BitVec.twoPow 2048 (pixelIndex x y)

/-- The pixels in flat order, element `64*y + x`: what the host reads (R197, D26). -/
def FrameBuffer.pixels (fb : FrameBuffer) : List Bool := (List.range 2048).map fb.getLsbD

/-- One set sprite bit at (px, py): an in-bounds pixel is flipped and a 1 there is a hit; any other target is skipped (R191, R193).
The pair is the frame buffer and the collision flag so far. -/
def blitBit (acc : FrameBuffer × Bool) (px py : Nat) : FrameBuffer × Bool :=
  if inFrame px py then (acc.1.flip px py, acc.2 || acc.1.pixel px py) else acc

/-- The columns of a sprite row, in the order of R191. -/
def spriteColumns : List Nat := [0, 1, 2, 3, 4, 5, 6, 7]

/-- The sprite bit at column offset `col`: bit 7 is the leftmost pixel (R192). -/
def spriteBit (b : Byte) (col : Nat) : Bool := decide (col ≤ 7) && b.getLsbD (7 - col)

/-- One sprite row at row `py`, columns from `x0` (R191). -/
def blitRow (b : Byte) (x0 py : Nat) (acc : FrameBuffer × Bool) : FrameBuffer × Bool :=
  spriteColumns.foldl (fun a col => if spriteBit b col then blitBit a (x0 + col) py else a) acc

/-- The rows of a sprite from row `py` downward (R191, R192). -/
def blitRows : List Byte → Nat → Nat → FrameBuffer × Bool → FrameBuffer × Bool
  | [], _, _, acc => acc
  | b :: rest, x0, py, acc => blitRows rest x0 (py + 1) (blitRow b x0 py acc)

end Sys2Proof.Machine
end

