-- ==== Sys2Proof/Machine/Memory.lean ====
section
/-! DEFINITION. Main memory (spec/20_memory.md R60, R61) as a list of cells in one canonical form, and its byte operations. The range
check of R65 is made by the operations on State (Machine/Ops.lean). -/

namespace Sys2Proof.Machine

/-- Main memory: the cells that differ from what an unlisted address reads as, by rising address. -/
abbrev Memory := List Host.Cell

/-- What an address that is not listed reads as: the reset contents, zero (10_state.md R39; log 3). -/
def unlistedByte : Byte := 0x00#8

/-- The byte at address `a`. -/
def Memory.readByte : Memory → Nat → Byte
  | [], _ => unlistedByte
  | (b, w) :: rest, a => if a = b then w else Memory.readByte rest a

/-- Memory with `v` stored at `a`: the canonical form is kept, and storing what an unlisted address reads as removes the cell. -/
def Memory.writeByte : Memory → Nat → Byte → Memory
  | [], a, v => if v = unlistedByte then [] else [(a, v)]
  | (b, w) :: rest, a, v =>
    if a < b then
      if v = unlistedByte then (b, w) :: rest else (a, v) :: (b, w) :: rest
    else if a = b then
      if v = unlistedByte then rest else (a, v) :: rest
    else (b, w) :: Memory.writeByte rest a v

/-- Memory with the bytes stored at `a`, `a + 1`, …, in that order. -/
def Memory.storeBytes : Memory → Nat → List Byte → Memory
  | m, _, [] => m
  | m, a, v :: vs => Memory.storeBytes (Memory.writeByte m a v) (a + 1) vs

/-- Every listed address is at least `lo`, addresses rise strictly, lie inside memory, and no cell holds the unlisted byte. -/
def Memory.wfFrom : Nat → Memory → Bool
  | _, [] => true
  | lo, (a, v) :: rest =>
    decide (lo ≤ a) && decide (a < Config.memSize) && decide (v ≠ unlistedByte) && Memory.wfFrom (a + 1) rest

/-- The canonical form of memory. -/
def Memory.wf (m : Memory) : Bool := Memory.wfFrom 0 m

end Sys2Proof.Machine
end

