-- ==== Sys2Proof/Machine/Params.lean ====
section
/-! DEFINITION. The parameters whose value the spec decides (spec/00_scope.md R6, 92_eei_decisions.md D1, D9), the font
(20_memory.md R68) and the timer period (R5, 90_conflicts.md C2). -/

namespace Sys2Proof.Machine

/-- MIN_STACK (R6, D1): the reset value of SP and the bottom stack slot. -/
def minStack : Word := 0xEA0#16

/-- MAX_STACK (R6, D1): the highest address of the stack window. -/
def maxStack : Word := 0xEFF#16

/-- FONT_BASE (R6, D9). -/
def fontBase : Word := 0x000#16

/-- FONT_GLYPH_BYTES (R6): the bytes of one glyph. -/
def glyphBytes : Nat := 5

/-- TIMER_PERIOD_MS (R5): 16.6 ms, exactly 83/5 (93_implementation_defined.md U13). -/
def timerPeriod : Rat := 83 / 5

/-- The glyphs 0 to 7 of R68. -/
def fontGlyphs0to7 : List Byte :=
  [0xF0#8, 0x90#8, 0x90#8, 0x90#8, 0xF0#8] ++
  [0x20#8, 0x60#8, 0x20#8, 0x20#8, 0x70#8] ++
  [0xF0#8, 0x10#8, 0xF0#8, 0x80#8, 0xF0#8] ++
  [0xF0#8, 0x10#8, 0xF0#8, 0x10#8, 0xF0#8] ++
  [0x90#8, 0x90#8, 0xF0#8, 0x10#8, 0x10#8] ++
  [0xF0#8, 0x80#8, 0xF0#8, 0x10#8, 0xF0#8] ++
  [0xF0#8, 0x80#8, 0xF0#8, 0x90#8, 0xF0#8] ++
  [0xF0#8, 0x10#8, 0x20#8, 0x40#8, 0x40#8]

/-- The glyphs 8 to F of R68. -/
def fontGlyphs8toF : List Byte :=
  [0xF0#8, 0x90#8, 0xF0#8, 0x90#8, 0xF0#8] ++
  [0xF0#8, 0x90#8, 0xF0#8, 0x10#8, 0xF0#8] ++
  [0xF0#8, 0x90#8, 0xF0#8, 0x90#8, 0x90#8] ++
  [0xE0#8, 0x90#8, 0xE0#8, 0x90#8, 0xE0#8] ++
  [0xF0#8, 0x80#8, 0x80#8, 0x80#8, 0xF0#8] ++
  [0xE0#8, 0x90#8, 0x90#8, 0x90#8, 0xE0#8] ++
  [0xF0#8, 0x80#8, 0xF0#8, 0x80#8, 0xF0#8] ++
  [0xF0#8, 0x80#8, 0xF0#8, 0x80#8, 0x80#8]

/-- FONT: 80 bytes, glyph d at offset 5d (R68). -/
def font : List Byte := fontGlyphs0to7 ++ fontGlyphs8toF

end Sys2Proof.Machine
end

