-- ==== Sys2Proof/Machine/State.lean ====
section
/-! DEFINITION. The state of the engine (spec/10_state.md R20 to R33) as plain data, the fault causes (60_exceptions.md R320), the
refusals, and the state after reset (R39). -/

namespace Sys2Proof.Machine

/-- The fault causes: exactly the four of 60_exceptions.md R320. Taking a fault is a NEXT state whose latch `State.fault` holds the
cause (R327, `State.raise`), so these are the values of that latch; no step answers `Host.Outcome.fault`. All four are safe: the machine
halts and no later step has an effect (R129). -/
inductive Fault where
  /-- Raised by the decode of a step: the fetched word matches no row of R96 (R321). Safe. -/
  | unknownOpcode (op pc : Word)
  /-- Raised by CALL when `SP + 2 > MAX_STACK` (R322). Safe. -/
  | stackOverflow (sp pc : Word)
  /-- Raised by `loadRom` when the image is longer than 3232 bytes (R323). Safe. -/
  | romTooLarge (length : Nat)
  /-- Raised by the fetch, DRAW, BCD, STOR and READ (and RTS, on a stack pointer no run reaches) when a byte address above 0xFFF is
  accessed (R324). Safe. -/
  | addressOutOfRange (address : Nat)
  deriving DecidableEq, Repr

/-- Why a step has no meaning in the model. -/
inductive Refusal where
  /-- Raised by exec for an instruction whose meaning is not written; no arm of exec does. Safe. -/
  | notModelled (mnemonic : String)
  deriving DecidableEq, Repr

/-- The state of the engine, R20 to R33, and the model's two fields for what the spec leaves open. -/
structure State where
  /-- V0..VF (R20); `VF` is index 15 (R21). -/
  v : Vector Byte 16
  /-- I, the index register (R22). -/
  i : Word
  /-- PC (R23). -/
  pc : Word
  /-- SP (R24). -/
  sp : Word
  /-- DT, the delay timer (R25). -/
  dt : Byte
  /-- DTacc, the timer's accumulated milliseconds, exact (R26). -/
  dtAcc : Rat
  /-- Mem (R27). -/
  mem : Memory
  /-- FB (R28). -/
  fb : FrameBuffer
  /-- `finished` (R29). -/
  finished : Bool
  /-- `frameBufferUpdated` (R30). -/
  frameBufferUpdated : Bool
  /-- `playSound` (R31). -/
  playSound : Bool
  /-- `rngSeed` (R32): the seed given to the last reset, if any. -/
  rngSeed : Option Int
  /-- `rngCount` (R32): the RAND instructions executed since that reset. -/
  rngCount : Nat
  /-- The fault latch (R33). -/
  fault : Option Fault
  /-- THE MODEL'S OWN: the `elapsedMs` arguments of the coming steps, oldest first (R7, log 5). -/
  elapsedQueue : List Millis
  /-- THE MODEL'S OWN: how many free values have been drawn (log 6). -/
  freeCount : Nat
  deriving DecidableEq, Repr

/-- The state `reset(seed?)` leaves, of the table in R39; the model's own fields at the values of log 5 and log 6. -/
def State.resetWith (seed : Option Int) : State where
  v := Vector.replicate 16 0x00#8
  i := 0x0000#16
  pc := Config.pcReset
  sp := minStack
  dt := 0#8
  dtAcc := 0
  mem := []
  fb := FrameBuffer.clear
  finished := false
  frameBufferUpdated := false
  playSound := false
  rngSeed := seed
  rngCount := 0
  fault := none
  elapsedQueue := []
  freeCount := 0

/-- The machine right after `reset()` with no seed (R39, R350). -/
def State.reset : State := State.resetWith none

end Sys2Proof.Machine
end

