-- ==== Sys2Proof/Machine/Operands.lean ====
section
/-! DEFINITION. Registers and operand forms (spec/10_state.md R20 to R24, 30_encoding.md R94, 47_index_memory.md): every read and write of
a register passes here. -/

namespace Sys2Proof.Machine

/-- `V[x]`. No register is hardwired (R20). -/
def State.getV (s : State) (x : RegIdx) : Byte := s.v[x.toNat]

/-- `V[x] <- b`. -/
def State.setV (s : State) (x : RegIdx) (b : Byte) : State := { s with v := s.v.set x.toNat b }

/-- `I <- w`. -/
def State.setI (s : State) (w : Word) : State := { s with i := w }

/-- `PC <- w`. -/
def State.setPc (s : State) (w : Word) : State := { s with pc := w }

/-- `SP <- w`. -/
def State.setSp (s : State) (w : Word) : State := { s with sp := w }

/-- `next`: `PC <- PC + 2` modulo 65536 (R12, R124). -/
def State.advance (s : State) : State := s.setPc (s.pc + 2#16)

/-- A skip instruction's end: `PC <- PC + 4` when the condition holds, else `next` (R124). -/
def State.skipIf (s : State) (c : Bool) : State := if c then s.setPc (s.pc + 4#16) else s.advance

/-- `zext_16(NNN)` (R94). -/
def addrOperand (nnn : Addr) : Word := nnn.setWidth 16

/-- `zext_16(V[x])`. -/
def State.regOperand16 (s : State) (x : RegIdx) : Word := (s.getV x).setWidth 16

/-- The address `I + k` of the one data addressing mode: an exact sum, not reduced modulo 65536 (R65). -/
def State.indexAddr (s : State) (k : Nat) : Nat := s.i.toNat + k

/-- `V[0], …, V[x]`: the registers STOR stores (R233, inclusive). -/
def State.regsUpTo (s : State) (x : RegIdx) : List Byte :=
  (List.range (x.toNat + 1)).map fun k => s.getV (BitVec.ofNat 4 k)

/-- `V[k] <- b0`, `V[k+1] <- b1`, …: the registers READ loads (R234). -/
def State.loadRegs : State → Nat → List Byte → State
  | s, _, [] => s
  | s, k, b :: rest => State.loadRegs (s.setV (BitVec.ofNat 4 k) b) (k + 1) rest

end Sys2Proof.Machine
end

