-- ==== Sys2Proof/Machine/Flags.lean ====
section
/-! DEFINITION. The values written to VF as a flag (spec/10_state.md R21) and the order of result and flag (42_alu.md R160). -/

namespace Sys2Proof.Machine

/-- A flag byte: 1 or 0. -/
def flagByte (c : Bool) : Byte := if c then 1#8 else 0#8

/-- ADD: 1 iff `a + b > 255` (R156). -/
def carryFlag (a b : Byte) : Byte := flagByte (decide (a.toNat + b.toNat > 255))

/-- SUB and SUBN: 1 iff there is no borrow, the subtrahend is at most the minuend (R157, R158). -/
def noBorrowFlag (minuend subtrahend : Byte) : Byte := flagByte (decide (subtrahend.toNat ≤ minuend.toNat))

/-- SHR: bit 0 of the value before the shift (R170). -/
def shiftedOutRight (t : Byte) : Byte := flagByte (t.getLsbD 0)

/-- SHL: bit 7 of the value before the shift (R171). -/
def shiftedOutLeft (t : Byte) : Byte := flagByte (t.getLsbD 7)

/-- DRAW: 1 on collision (R191, R194). -/
def collisionFlag (hit : Bool) : Byte := flagByte hit

/-- `V[x] <- result`, then `VF <- flag`: the flag is written last (R160, D11). -/
def State.setResultFlag (s : State) (x : RegIdx) (result flag : Byte) : State := (s.setV x result).setV VF flag

end Sys2Proof.Machine
end

