-- ==== Sys2Proof/Machine/Ops.lean ====
section
/-! DEFINITION. The shared operations over State: memory with the range check of spec/20_memory.md R65, the fetch (40_control_flow.md
R122), taking a fault (60_exceptions.md R327), the free values, and the state after a reset by the host (there is no other return from a
fault, R330). -/

namespace Sys2Proof.Machine

/-- The outcome of a step or of an instruction. -/
abbrev Outcome := Host.Outcome State Fault Refusal

/-- What an operation that may raise a fault gives: its result, or the fault it raises (R12, `raise`). -/
abbrev Attempt (α : Type) := Except Fault α

/-! ### Taking a fault (R327) -/

/-- Fault entry: every piece of state as it was, and `fault <- F(info)`. -/
def State.raise (s : State) (f : Fault) : State := { s with fault := some f }

/-- The end of an instruction that began in `s`: the state it reached, or the fault it raised, taken in `s` so that nothing of the
instruction remains. -/
def complete (s : State) (r : Attempt State) : Outcome :=
  match r with
  | .ok t => .next t
  | .error f => .next (s.raise f)

/-- The whole step's rollback: a fault raised after the timer phase is taken in the state `s0` before it (R120, R327). -/
def rollback (s0 : State) (o : Outcome) : Outcome :=
  match o with
  | .next t =>
    match t.fault with
    | none => .next t
    | some f => .next (s0.raise f)
  | .fault r => .fault r
  | .refused r => .refused r

/-- The engine executes nothing: `fault ≠ none` or `finished` (R129). -/
def State.ended (s : State) : Bool := s.fault.isSome || s.finished

/-! ### Memory (R12, R65) -/

/-- The byte at `a` of the state's memory, `Mem[a]`. -/
def State.byteAt (s : State) (a : Nat) : Byte := Memory.readByte s.mem a

/-- Memory replaced. -/
def State.setMem (s : State) (m : Memory) : State := { s with mem := m }

/-- `MemRead(a, 1)`. -/
def State.memRead (s : State) (a : Nat) : Attempt Byte :=
  if a < Config.memSize then .ok (s.byteAt a) else .error (.addressOutOfRange a)

/-- `MemWrite(a, 1, b)`. -/
def State.memWrite (s : State) (a : Nat) (b : Byte) : Attempt State :=
  if a < Config.memSize then .ok (s.setMem (Memory.writeByte s.mem a b)) else .error (.addressOutOfRange a)

/-- `n` single-byte reads at `a`, `a + 1`, …, lowest address first. -/
def State.readBytes (s : State) : Nat → Nat → Attempt (List Byte)
  | _, 0 => .ok []
  | a, n + 1 =>
    match s.memRead a with
    | .error f => .error f
    | .ok b =>
      match State.readBytes s (a + 1) n with
      | .error f => .error f
      | .ok rest => .ok (b :: rest)

/-- Single-byte writes at `a`, `a + 1`, …, lowest address first. -/
def State.writeBytes : State → Nat → List Byte → Attempt State
  | s, _, [] => .ok s
  | s, a, b :: rest =>
    match s.memWrite a b with
    | .error f => .error f
    | .ok t => State.writeBytes t (a + 1) rest

/-- `MemRead(a, 2)`: big-endian (R12, R62). -/
def State.memRead16 (s : State) (a : Nat) : Attempt Word :=
  match s.memRead a with
  | .error f => .error f
  | .ok hi =>
    match s.memRead (a + 1) with
    | .error f => .error f
    | .ok lo => .ok (wordOfBytes hi lo)

/-- `MemWrite(a, 2, w)`: big-endian (R12, R62). -/
def State.memWrite16 (s : State) (a : Nat) (w : Word) : Attempt State := s.writeBytes a [hiByte w, loByte w]

/-- Fetch: the big-endian word at PC; PC is not changed (R122). -/
def State.fetch (s : State) : Attempt Word := s.memRead16 s.pc.toNat

/-! ### The other fields -/

/-- DT and DTacc written. -/
def State.setTimer (s : State) (dt : Byte) (acc : Rat) : State := { s with dt := dt, dtAcc := acc }

/-- FB written. -/
def State.setFb (s : State) (fb : FrameBuffer) : State := { s with fb := fb }

/-- `frameBufferUpdated` written (R30). -/
def State.setFbu (s : State) (c : Bool) : State := { s with frameBufferUpdated := c }

/-- `finished <- true` (R29). -/
def State.setFinished (s : State) : State := { s with finished := true }

/-- `rngCount <- rngCount + 1` (R181). -/
def State.countRand (s : State) : State := { s with rngCount := s.rngCount + 1 }

/-- One more free value drawn. -/
def State.countFree (s : State) : State := { s with freeCount := s.freeCount + 1 }

/-- The queue of `elapsedMs` arguments replaced. -/
def State.setQueue (s : State) (q : List Millis) : State := { s with elapsedQueue := q }

/-- The `elapsedMs` argument of this step and the state with it taken: the head of the queue, or a free value when the queue gives none
(R7, log 5). -/
def State.takeElapsed (s : State) : Millis × State :=
  match s.elapsedQueue with
  | e :: rest => (e, s.setQueue rest)
  | [] => (Config.freeElapsed s.freeCount, s.countFree)

/-- `reset(seed?)` on a state: everything the spec gives the machine at R39 (R350, R351). The model's own fields stay: arguments the host
gives later are still to come, and a free value is never drawn again. The only way out of a fault (R330). -/
def State.hostReset (s : State) (seed : Option Int) : State :=
  { State.resetWith seed with elapsedQueue := s.elapsedQueue, freeCount := s.freeCount }

end Sys2Proof.Machine
end

