-- ==== Sys2Proof/Machine/Alu.lean ====
section
/-! DEFINITION. Register load, move, logic and arithmetic (spec/42_alu.md). All operands are read before any write (00_scope.md R13). -/

namespace Sys2Proof.Machine

/-- LOAD Vx, byte (R150). -/
def execLoad (x : RegIdx) (nn : Byte) (s : State) : Outcome := .next (s.setV x nn).advance

/-- ADDB Vx, byte (R151): no flag. -/
def execAddb (x : RegIdx) (nn : Byte) (s : State) : Outcome := .next (s.setV x (s.getV x + nn)).advance

/-- MOVE Vx, Vy (R152). -/
def execMove (x y : RegIdx) (s : State) : Outcome := .next (s.setV x (s.getV y)).advance

/-- OR Vx, Vy (R153): VF is not written. -/
def execOr (x y : RegIdx) (s : State) : Outcome := .next (s.setV x (s.getV x ||| s.getV y)).advance

/-- AND Vx, Vy (R154): VF is not written. -/
def execAnd (x y : RegIdx) (s : State) : Outcome := .next (s.setV x (s.getV x &&& s.getV y)).advance

/-- XOR Vx, Vy (R155): VF is not written. -/
def execXor (x y : RegIdx) (s : State) : Outcome := .next (s.setV x (s.getV x ^^^ s.getV y)).advance

/-- ADD Vx, Vy (R156): the sum modulo 256, then the carry in VF. -/
def execAdd (x y : RegIdx) (s : State) : Outcome :=
  .next (s.setResultFlag x (s.getV x + s.getV y) (carryFlag (s.getV x) (s.getV y))).advance

/-- SUB Vx, Vy (R157): `V[x] - V[y]` modulo 256, then the no-borrow flag in VF. -/
def execSub (x y : RegIdx) (s : State) : Outcome :=
  .next (s.setResultFlag x (s.getV x - s.getV y) (noBorrowFlag (s.getV x) (s.getV y))).advance

/-- SUBN Vx, Vy (R158): `V[y] - V[x]` modulo 256, then the no-borrow flag in VF. -/
def execSubn (x y : RegIdx) (s : State) : Outcome :=
  .next (s.setResultFlag x (s.getV y - s.getV x) (noBorrowFlag (s.getV y) (s.getV x))).advance

end Sys2Proof.Machine
end

