-- ==== Sys2Proof/Machine/ControlFlow.lean ====
section
/-! DEFINITION. Control transfer (spec/40_control_flow.md): JUMP, CALL, RTS, JUMPI. -/

namespace Sys2Proof.Machine

/-- JUMP addr (R125): `PC <- zext_16(NNN)`. -/
def execJump (nnn : Addr) (s : State) : Outcome := .next (s.setPc (addrOperand nnn))

/-- CALL (R126): the test, the push of the CALL's own address, the jump. The sum of the test is exact. -/
def callSub (nnn : Addr) (s : State) : Attempt State :=
  if s.sp.toNat + 2 > maxStack.toNat then .error (.stackOverflow s.sp s.pc)
  else
    match s.memWrite16 s.sp.toNat s.pc with
    | .error f => .error f
    | .ok t => .ok ((t.setSp (s.sp + 2#16)).setPc (addrOperand nnn))

/-- CALL addr (R126). -/
def execCall (nnn : Addr) (s : State) : Outcome := complete s (callSub nnn s)

/-- `sp'` of R127: the slot RTS pops, never below MIN_STACK when SP is not. -/
def popSlot (s : State) : Word := if s.sp.toNat > minStack.toNat then s.sp - 2#16 else s.sp

/-- RTS (R127): the end of the run when the bottom slot holds zero, else the return with the popped slot cleared. -/
def returnSub (s : State) : Attempt State :=
  match s.memRead16 (popSlot s).toNat with
  | .error f => .error f
  | .ok v =>
    if popSlot s = minStack ∧ v = 0#16 then .ok (s.setFinished.setSp (popSlot s))
    else
      match s.memWrite16 (popSlot s).toNat 0#16 with
      | .error f => .error f
      | .ok t => .ok ((t.setSp (popSlot s)).setPc (v + 2#16))

/-- RTS (R127). -/
def execRts (s : State) : Outcome := complete s (returnSub s)

/-- JUMPI addr (R128): `PC <- zext_16(NNN) + zext_16(V[0])`. -/
def execJumpi (nnn : Addr) (s : State) : Outcome := .next (s.setPc (addrOperand nnn + s.regOperand16 0#4))

end Sys2Proof.Machine
end

