-- ==== Sys2Proof/Machine/Display.lean ====
section
/-! DEFINITION. Display (spec/45_display.md): CLR, DRAW, LDSPR. -/

namespace Sys2Proof.Machine

/-- CLR (R190). -/
def execClr (s : State) : Outcome := .next ((s.setFb FrameBuffer.clear).setFbu true).advance

/-- DRAW (R191): the sprite bytes read, the frame buffer XORed, VF written last. A read that faults leaves everything as it was (R327),
so reading all bytes before the first pixel is the same as the rule's row by row. -/
def drawSprite (x y : RegIdx) (n : Nibble) (s : State) : Attempt State :=
  match s.readBytes (s.indexAddr 0) n.toNat with
  | .error f => .error f
  | .ok sprite =>
    let r := blitRows sprite (s.getV x).toNat (s.getV y).toNat (s.fb, false)
    .ok (((s.setFb r.1).setV VF (collisionFlag r.2)).setFbu true).advance

/-- DRAW Vx, Vy, nibble (R191). -/
def execDraw (x y : RegIdx) (n : Nibble) (s : State) : Outcome := complete s (drawSprite x y n s)

/-- The address of the glyph of a digit: `FONT_BASE + 5 * d` (R195). -/
def glyphAddr (d : Nibble) : Word := fontBase + BitVec.ofNat 16 (glyphBytes * d.toNat)

/-- LDSPR Vx (R195): the low nibble of V[x] selects the glyph. -/
def execLdspr (x : RegIdx) (s : State) : Outcome := .next (s.setI (glyphAddr ((s.getV x).extractLsb' 0 4))).advance

end Sys2Proof.Machine
end

