-- ==== Sys2Proof/Machine/IndexMemory.lean ====
section
/-! DEFINITION. Index register and memory transfer (spec/47_index_memory.md): LOADI, ADDI, BCD, STOR, READ. -/

namespace Sys2Proof.Machine

/-- LOADI addr (R230): `I <- zext_16(NNN)`. -/
def execLoadi (nnn : Addr) (s : State) : Outcome := .next (s.setI (addrOperand nnn)).advance

/-- ADDI Vx (R231): `I <- I + zext_16(V[x])` modulo 65536; no flag. -/
def execAddi (x : RegIdx) (s : State) : Outcome := .next (s.setI (s.i + s.regOperand16 x)).advance

/-- The three decimal digits of a byte, hundreds first (R232). -/
def bcdDigits (b : Byte) : List Byte :=
  [BitVec.ofNat 8 (b.toNat / 100), BitVec.ofNat 8 (b.toNat / 10 % 10), BitVec.ofNat 8 (b.toNat % 10)]

/-- Bytes stored from I on, then `next`; I unchanged (R232, R233). -/
def storeAtIndex (s : State) (bytes : List Byte) : Attempt State :=
  match s.writeBytes (s.indexAddr 0) bytes with
  | .error f => .error f
  | .ok t => .ok t.advance

/-- BCD Vx (R232). -/
def execBcd (x : RegIdx) (s : State) : Outcome := complete s (storeAtIndex s (bcdDigits (s.getV x)))

/-- STOR Vx (R233): V0 to Vx, inclusive. -/
def execStor (x : RegIdx) (s : State) : Outcome := complete s (storeAtIndex s (s.regsUpTo x))

/-- READ (R234): V0 to Vx, inclusive, loaded from I on; I unchanged. -/
def loadFromIndex (x : RegIdx) (s : State) : Attempt State :=
  match s.readBytes (s.indexAddr 0) (x.toNat + 1) with
  | .error f => .error f
  | .ok bytes => .ok (s.loadRegs 0 bytes).advance

/-- READ Vx (R234). -/
def execRead (x : RegIdx) (s : State) : Outcome := complete s (loadFromIndex x s)

end Sys2Proof.Machine
end

