-- ==== Sys2Proof/Machine/Random.lean ====
section
/-! DEFINITION. The random generator and RAND (spec/44_random.md). -/

namespace Sys2Proof.Machine

/-- `G(seed, count)` (R181), pinned at one pair: `G(123, 0) = 3` (R182); an opaque value everywhere else (log 7). -/
def generator (seed : Int) (count : Nat) : Byte :=
  if seed = 123 ∧ count = 0 then 3#8 else Config.unpinnedByte seed count

/-- `RandomByte()` (R181): the byte drawn, and the state after the draw. Seeded: `G(rngSeed, rngCount)`. Without a seed: a free value
(log 6). Every draw advances `rngCount`. -/
def randomByte (s : State) : Byte × State :=
  match s.rngSeed with
  | some seed => (generator seed s.rngCount, s.countRand)
  | none => (Config.freeByte s.freeCount, s.countRand.countFree)

/-- RAND Vx, byte (R180): `V[x] <- r & NN`; one draw whatever the mask. -/
def execRand (x : RegIdx) (nn : Byte) (s : State) : Outcome :=
  .next ((randomByte s).2.setV x ((randomByte s).1 &&& nn)).advance

end Sys2Proof.Machine
end

