-- ==== Sys2Proof/Machine/Shifts.lean ====
section
/-! DEFINITION. Shifts by one of Vy into Vx (spec/43_shifts.md): SHR, SHL. -/

namespace Sys2Proof.Machine

/-- SHR Vx, Vy (R170): the source's value before any write, shifted right; then its old bit 0 in VF. -/
def execShr (x y : RegIdx) (s : State) : Outcome :=
  .next (s.setResultFlag x (s.getV y >>> 1) (shiftedOutRight (s.getV y))).advance

/-- SHL Vx, Vy (R171): the source's value before any write, shifted left modulo 256; then its old bit 7 in VF. -/
def execShl (x y : RegIdx) (s : State) : Outcome :=
  .next (s.setResultFlag x (s.getV y <<< 1) (shiftedOutLeft (s.getV y))).advance

end Sys2Proof.Machine
end

