-- ==== Sys2Proof/Machine/Skips.lean ====
section
/-! DEFINITION. Conditional skips (spec/41_skips.md): SKE, SKNE, SKRE, SKRNE. -/

namespace Sys2Proof.Machine

/-- SKE Vx, byte (R140). -/
def execSke (x : RegIdx) (nn : Byte) (s : State) : Outcome := .next (s.skipIf (s.getV x == nn))

/-- SKNE Vx, byte (R141). -/
def execSkne (x : RegIdx) (nn : Byte) (s : State) : Outcome := .next (s.skipIf (s.getV x != nn))

/-- SKRE Vx, Vy (R142). -/
def execSkre (x y : RegIdx) (s : State) : Outcome := .next (s.skipIf (s.getV x == s.getV y))

/-- SKRNE Vx, Vy (R143). -/
def execSkrne (x y : RegIdx) (s : State) : Outcome := .next (s.skipIf (s.getV x != s.getV y))

end Sys2Proof.Machine
end

