-- ==== Sys2Proof/Machine/Stubs.lean ====
section
/-! DEFINITION. Keypad and sound stubs (spec/48_stubs.md): each decodes, changes nothing and ends with `next`. The register operand
is ignored. -/

namespace Sys2Proof.Machine

/-- SKPR Vx (R250): never skips. -/
def execSkpr (_x : RegIdx) (s : State) : Outcome := .next s.advance

/-- SKUP Vx (R251): never skips. -/
def execSkup (_x : RegIdx) (s : State) : Outcome := .next s.advance

/-- KEYD Vx (R252): neither waits nor writes. -/
def execKeyd (_x : RegIdx) (s : State) : Outcome := .next s.advance

/-- LOADS Vx (R253): there is no sound timer. -/
def execLoads (_x : RegIdx) (s : State) : Outcome := .next s.advance

end Sys2Proof.Machine
end

