-- ==== Sys2Proof/Machine/Timer.lean ====
section
/-! DEFINITION. The delay timer (spec/46_timers.md): the timer phase of a step, MOVED, LOADD. -/

namespace Sys2Proof.Machine

/-- The number of milliseconds an `elapsedMs` argument stands for. -/
def millisValue (e : Millis) : Rat := (e.num : Rat) / ((e.denPred : Rat) + 1)

/-- `floor(acc / 16.6)`: the whole timer ticks in `acc` (R210). -/
def wholeTicks (acc : Rat) : Nat := (acc / timerPeriod).floor.toNat

/-- The timer phase of a step (R210). -/
def timerPhase (e : Millis) (s : State) : State :=
  if s.dt = 0#8 then s
  else
    let acc := s.dtAcc + millisValue e
    let n := wholeTicks acc
    if n ≥ s.dt.toNat then s.setTimer 0#8 0
    else s.setTimer (s.dt - BitVec.ofNat 8 n) (acc - n * timerPeriod)

/-- MOVED Vx (R211): `V[x] <- DT`, the value after this step's timer phase. -/
def execMoved (x : RegIdx) (s : State) : Outcome := .next (s.setV x s.dt).advance

/-- LOADD Vx (R212): `DT <- V[x]`, `DTacc <- 0`. -/
def execLoadd (x : RegIdx) (s : State) : Outcome := .next (s.setTimer (s.getV x) 0).advance

end Sys2Proof.Machine
end

