-- ==== Sys2Proof/Machine/Dispatch.lean ====
section
/-! DEFINITION. The dispatch: one meaning per instruction. -/

namespace Sys2Proof.Machine

/-- The effect of one instruction on a state whose PC is the instruction's address (10_state.md R23). -/
def exec (i : Instr) (s : State) : Host.Outcome State Fault Refusal :=
  match i with
  | .clr => Sys2Proof.Machine.execClr s
  | .rts => Sys2Proof.Machine.execRts s
  | .jump nnn => Sys2Proof.Machine.execJump nnn s
  | .call nnn => Sys2Proof.Machine.execCall nnn s
  | .ske x nn => Sys2Proof.Machine.execSke x nn s
  | .skne x nn => Sys2Proof.Machine.execSkne x nn s
  | .skre x y => Sys2Proof.Machine.execSkre x y s
  | .load x nn => Sys2Proof.Machine.execLoad x nn s
  | .addb x nn => Sys2Proof.Machine.execAddb x nn s
  | .move x y => Sys2Proof.Machine.execMove x y s
  | .or x y => Sys2Proof.Machine.execOr x y s
  | .and x y => Sys2Proof.Machine.execAnd x y s
  | .xor x y => Sys2Proof.Machine.execXor x y s
  | .add x y => Sys2Proof.Machine.execAdd x y s
  | .sub x y => Sys2Proof.Machine.execSub x y s
  | .shr x y => Sys2Proof.Machine.execShr x y s
  | .subn x y => Sys2Proof.Machine.execSubn x y s
  | .shl x y => Sys2Proof.Machine.execShl x y s
  | .skrne x y => Sys2Proof.Machine.execSkrne x y s
  | .loadi nnn => Sys2Proof.Machine.execLoadi nnn s
  | .jumpi nnn => Sys2Proof.Machine.execJumpi nnn s
  | .rand x nn => Sys2Proof.Machine.execRand x nn s
  | .draw x y n => Sys2Proof.Machine.execDraw x y n s
  | .skpr x => Sys2Proof.Machine.execSkpr x s
  | .skup x => Sys2Proof.Machine.execSkup x s
  | .moved x => Sys2Proof.Machine.execMoved x s
  | .keyd x => Sys2Proof.Machine.execKeyd x s
  | .loadd x => Sys2Proof.Machine.execLoadd x s
  | .loads x => Sys2Proof.Machine.execLoads x s
  | .addi x => Sys2Proof.Machine.execAddi x s
  | .ldspr x => Sys2Proof.Machine.execLdspr x s
  | .bcd x => Sys2Proof.Machine.execBcd x s
  | .stor x => Sys2Proof.Machine.execStor x s
  | .read x => Sys2Proof.Machine.execRead x s

end Sys2Proof.Machine
end

