-- ==== Sys2Proof/Machine/Cycle.lean ====
section
/-! DEFINITION. The step cycle (spec/40_control_flow.md R120): timer phase, fetch, decode, execute. -/

namespace Sys2Proof.Machine

/-- Fetch, decode and execute from a state after the timer phase; `frameBufferUpdated` is cleared before the instruction (R30). -/
def fetchExecute (s : State) : Outcome :=
  match s.fetch with
  | .error f => .next (s.raise f)
  | .ok op =>
    match decode op with
    | .error _ => .next (s.raise (.unknownOpcode op s.pc))
    | .ok i => exec i (s.setFbu false)

/-- `step(elapsedMs)` (R120): nothing on a state that has ended (R129); else one cycle, and a fault raised anywhere in it taken in the state
before it (R327). -/
def stepWith (e : Millis) (s : State) : Outcome :=
  if s.ended then .next s else rollback s (fetchExecute (timerPhase e s))

/-- One step, its `elapsedMs` taken from the state (R7, log 5): nothing on a state that has ended, else `step(elapsedMs)` with the next argument. -/
def stepNext (s : State) : Outcome :=
  if s.ended then .next s else stepWith s.takeElapsed.1 s.takeElapsed.2

/-- The two bytes of an instruction word stored at PC, as the fetch reads them (R91, R122); with PC above 0xFFE there is no such place
and nothing is stored. -/
def storeAtPc (s : State) (op : Word) : State :=
  if s.pc.toNat + 1 < Config.memSize then s.setMem (Memory.storeBytes s.mem s.pc.toNat [hiByte op, loByte op]) else s

end Sys2Proof.Machine
end

