-- ==== Sys2Proof/Machine/Step.lean ====
section
/-! DEFINITION. The step of the machine, and the host's way to place one instruction where the step fetches. -/

namespace Sys2Proof.Machine

/-- One step of the engine (spec/40_control_flow.md R120); the cycle is Machine/Cycle.lean. -/
def step (s : State) : Host.Outcome State Fault Refusal := stepNext s

/-- `s` with the instruction word `w` (its low `nbits` bits; a 16-bit word) stored where the next step fetches: at PC. For a state that
has not ended and whose PC is at most 0xFFE the next step fetches exactly it. -/
def State.withFetchWord (s : State) (nbits w : Nat) : State := storeAtPc s (BitVec.ofNat 16 (w % 2 ^ nbits))

end Sys2Proof.Machine
end

