-- ==== Sys2Proof/Machine/Assembler.lean ====
section
/-! DEFINITION. The two-pass assembler (spec/49_assembler.md R260 to R292): a pure function from a source text, a list of characters, to
ROM bytes or an error. It shares nothing with the engine but the instruction table (R10, R292). -/

namespace Sys2Proof.Assembler

/-! ### Results (R260, R282, R283, R288) -/

/-- The seven assembly-time error kinds (R282). -/
inductive ErrorKind where
  | syntaxError | unknownInstruction | operandCount | operandFormat | literalOverflow | duplicateLabel | unresolvedLabel
  deriving DecidableEq, Repr

/-- Why a source is outside the domain of `assembleSource` (R288, 93_implementation_defined.md U8; log 10). -/
inductive DomainLimit where
  /-- The location pointer passes 0x1000. -/
  | pointerPast
  /-- A label is used whose value exceeds 0xFFF. -/
  | labelPast
  deriving DecidableEq, Repr

/-- What one line can fail with, before the line's number and text are added (R283). -/
inductive Issue where
  | err (kind : ErrorKind)
  | limit (l : DomainLimit)
  deriving DecidableEq, Repr

/-- Why `assembleSource` gives no image: the error triple (kind, lineNumber, lineText) of R283, or the refusal of a source outside the
function's domain (R288). -/
inductive Stop where
  | error (kind : ErrorKind) (lineNumber : Nat) (lineText : List Char)
  | refused (l : DomainLimit)
  deriving DecidableEq, Repr

/-! ### Characters and lines (R262 to R264) -/

/-- Whitespace inside a line: space, tab, carriage return (R262, R263). -/
def isBlank (c : Char) : Bool := c == ' ' || c == '\t' || c == '\r'

/-- Leading and trailing whitespace removed. -/
def trim (l : List Char) : List Char := ((l.dropWhile isBlank).reverse.dropWhile isBlank).reverse

/-- A text cut at every `sep`. -/
def cutAt (sep : Char) : List Char → List (List Char)
  | [] => [[]]
  | c :: cs =>
    if c = sep then [] :: cutAt sep cs
    else
      match cutAt sep cs with
      | [] => [[c]]
      | piece :: rest => (c :: piece) :: rest

/-- A source line: its number, from 1, and its uncleaned text (R262, R263). -/
structure Line where
  number : Nat
  text : List Char
  deriving DecidableEq, Repr

/-- Lines numbered from `n`. -/
def numberFrom : Nat → List (List Char) → List Line
  | _, [] => []
  | n, t :: ts => ⟨n, t⟩ :: numberFrom (n + 1) ts

/-- The lines of a text: cut at every line feed, numbered from 1, empty lines included (R262). -/
def sourceLines (text : List Char) : List Line := numberFrom 1 (cutAt '\n' text)

/-- Cleaning: the comment stripped, then the surrounding whitespace (R263). -/
def clean (l : List Char) : List Char := trim (l.takeWhile (· != ';'))

/-- Upper case of the letters a to z (R264). -/
def upper (l : List Char) : List Char := l.map Char.toUpper

/-! ### Classification (R265) -/

/-- The spelling of a mnemonic (R96). -/
def spelling : Mnemonic → List Char
  | .clr => ['C', 'L', 'R']
  | .rts => ['R', 'T', 'S']
  | .jump => ['J', 'U', 'M', 'P']
  | .call => ['C', 'A', 'L', 'L']
  | .ske => ['S', 'K', 'E']
  | .skne => ['S', 'K', 'N', 'E']
  | .skre => ['S', 'K', 'R', 'E']
  | .load => ['L', 'O', 'A', 'D']
  | .addb => ['A', 'D', 'D', 'B']
  | .move => ['M', 'O', 'V', 'E']
  | .or => ['O', 'R']
  | .and => ['A', 'N', 'D']
  | .xor => ['X', 'O', 'R']
  | .add => ['A', 'D', 'D']
  | .sub => ['S', 'U', 'B']
  | .shr => ['S', 'H', 'R']
  | .subn => ['S', 'U', 'B', 'N']
  | .shl => ['S', 'H', 'L']
  | .skrne => ['S', 'K', 'R', 'N', 'E']
  | .loadi => ['L', 'O', 'A', 'D', 'I']
  | .jumpi => ['J', 'U', 'M', 'P', 'I']
  | .rand => ['R', 'A', 'N', 'D']
  | .draw => ['D', 'R', 'A', 'W']
  | .skpr => ['S', 'K', 'P', 'R']
  | .skup => ['S', 'K', 'U', 'P']
  | .moved => ['M', 'O', 'V', 'E', 'D']
  | .keyd => ['K', 'E', 'Y', 'D']
  | .loadd => ['L', 'O', 'A', 'D', 'D']
  | .loads => ['L', 'O', 'A', 'D', 'S']
  | .addi => ['A', 'D', 'D', 'I']
  | .ldspr => ['L', 'D', 'S', 'P', 'R']
  | .bcd => ['B', 'C', 'D']
  | .stor => ['S', 'T', 'O', 'R']
  | .read => ['R', 'E', 'A', 'D']

/-- The mnemonic a word spells, in either case (R264). -/
def mnemonicOf (head : List Char) : Option Mnemonic :=
  (mnemonicsLow ++ mnemonicsHigh).find? fun m => spelling m == upper head

/-- A character of a label name: a letter or an underscore (R265 test 2). -/
def isNameChar (c : Char) : Bool := c.isAlpha || c == '_'

/-- NAME: one or more label characters (R265 test 2). -/
def isName (l : List Char) : Bool := !l.isEmpty && l.all isNameChar

/-- The classes of R265, and the empty line of R263. -/
inductive LineClass where
  | empty
  | directive
  | label (name : List Char)
  | dataWord (rest : List Char)
  | dataByte (rest : List Char)
  | instruction (m : Mnemonic) (rest : List Char)
  | unknown
  deriving DecidableEq, Repr

/-- `head`: the maximal prefix without whitespace (R265). -/
def headOf (l : List Char) : List Char := l.takeWhile fun c => !isBlank c

/-- `rest`: the remainder after `head`, trimmed (R265). -/
def restOf (l : List Char) : List Char := trim (l.dropWhile fun c => !isBlank c)

/-- The class of a cleaned line: the first test of R265 that succeeds. -/
def classify (l : List Char) : LineClass :=
  if l.isEmpty then .empty
  else if upper (l.take 6) = ['O', 'P', 'T', 'I', 'O', 'N'] then .directive
  else if l.getLast? = some ':' ∧ isName l.dropLast then .label l.dropLast
  else if upper (headOf l) = ['D', 'W'] then .dataWord (restOf l)
  else if upper (headOf l) = ['D', 'B'] then .dataByte (restOf l)
  else
    match mnemonicOf (headOf l) with
    | some m => .instruction m (restOf l)
    | none => .unknown

/-- The class of a source line. -/
def Line.cls (l : Line) : LineClass := classify (clean l.text)

/-- An issue on a line, with the line's number and original text (R283). -/
def Line.stop (l : Line) : Issue → Stop
  | .err k => .error k l.number l.text
  | .limit d => .refused d

/-! ### Pass 1: address resolution (R267 to R269) -/

/-- The Label Table: name to address, unique names (R36, R267). -/
abbrev LabelTable := List (List Char × Nat)

/-- The value of a label. -/
def findLabel : LabelTable → List Char → Option Nat
  | [], _ => none
  | (n, a) :: rest, name => if n = name then some a else findLabel rest name

/-- The bytes a line of the class emits: an instruction and `DW` two, `DB` one (R267, R268). -/
def width : LineClass → Nat
  | .instruction _ _ => 2
  | .dataWord _ => 2
  | .dataByte _ => 1
  | .empty => 0
  | .directive => 0
  | .label _ => 0
  | .unknown => 0

/-- One line of pass 1 on the pointer and the table (R267). The pointer is 16 bits wide in the spec; it never passes 0x1000 here. -/
def resolveLine (c : LineClass) (ptr : Nat) (labels : LabelTable) : Except Issue (Nat × LabelTable) :=
  match c with
  | .unknown => .error (.err .unknownInstruction)
  | .label name =>
    match findLabel labels name with
    | some _ => .error (.err .duplicateLabel)
    | none => .ok (ptr, labels ++ [(name, ptr)])
  | c => if ptr + width c > Config.memSize then .error (.limit .pointerPast) else .ok (ptr + width c, labels)

/-- Pass 1 over the lines in order; the first issue ends the call (R261). -/
def resolve : List Line → Nat → LabelTable → Except Stop (Nat × LabelTable)
  | [], ptr, labels => .ok (ptr, labels)
  | l :: rest, ptr, labels =>
    match resolveLine l.cls ptr labels with
    | .error e => .error (l.stop e)
    | .ok (p, t) => resolve rest p t

/-! ### Operand grammars (R275 to R279) -/

/-- A decimal digit's value. -/
def digitValue (c : Char) : Option Nat := if c.isDigit then some (c.toNat - 48) else none

/-- A hexadecimal digit's value, in either case (R264). -/
def hexDigit (c : Char) : Option Nat :=
  if c.isDigit then some (c.toNat - 48)
  else if 'a' ≤ c ∧ c ≤ 'f' then some (c.toNat - 87)
  else if 'A' ≤ c ∧ c ≤ 'F' then some (c.toNat - 55)
  else none

/-- A bit of a `DB` literal: `.` is an alias for `0` (R281). -/
def bitValue (c : Char) : Option Nat :=
  if c = '1' then some 1 else if c = '0' ∨ c = '.' then some 0 else none

/-- The value of digits to a base, most significant first, after the value `acc`; none if a character is no digit. -/
def digits (value : Char → Option Nat) (base : Nat) : Nat → List Char → Option Nat
  | acc, [] => some acc
  | acc, c :: cs =>
    match value c with
    | none => none
    | some d => digits value base (base * acc + d) cs

/-- Exactly `n` digits; any other shape is malformed. -/
def exactDigits (value : Char → Option Nat) (base n : Nat) (l : List Char) : Except Issue Nat :=
  if l.length = n then
    match digits value base 0 l with
    | some v => .ok v
    | none => .error (.err .operandFormat)
  else .error (.err .operandFormat)

/-- A decimal literal of any length with an upper bound: above it the distinct overflow error (R278, R279). -/
def decimalBelow (bound : Nat) (l : List Char) : Except Issue Nat :=
  match l with
  | [] => .error (.err .operandFormat)
  | l =>
    match digits digitValue 10 0 l with
    | none => .error (.err .operandFormat)
    | some v => if v < bound then .ok v else .error (.err .literalOverflow)

/-- Register operand: `V` in either case and one hexadecimal digit (R276). -/
def parseRegister (l : List Char) : Except Issue Nat :=
  match l with
  | 'V' :: ds => exactDigits hexDigit 16 1 ds
  | 'v' :: ds => exactDigits hexDigit 16 1 ds
  | _ => .error (.err .operandFormat)

/-- A literal: `#` and exactly `n` hexadecimal digits, or a decimal below `bound` (R278, R279). -/
def parseLiteral (n bound : Nat) (l : List Char) : Except Issue Nat :=
  match l with
  | '#' :: ds => exactDigits hexDigit 16 n ds
  | l => decimalBelow bound l

/-- Address operand: `$` and exactly three hexadecimal digits, or a label name (R275). -/
def parseAddress (labels : LabelTable) (l : List Char) : Except Issue Nat :=
  match l with
  | '$' :: ds => exactDigits hexDigit 16 3 ds
  | l =>
    if isName l then
      match findLabel labels l with
      | none => .error (.err .unresolvedLabel)
      | some a => if a > 0xFFF then .error (.limit .labelPast) else .ok a
    else .error (.err .operandFormat)

/-- An operand of a kind (R272). -/
def parseOperand (labels : LabelTable) (k : OperandKind) (l : List Char) : Except Issue Nat :=
  match k with
  | .reg => parseRegister l
  | .byte => parseLiteral 2 256 l
  | .nibble => parseLiteral 1 16 l
  | .addr => parseAddress labels l

/-- The operands, left to right; the first issue is the one reported (R272, R284). -/
def parseOperands (labels : LabelTable) : List OperandKind → List (List Char) → Except Issue (List Nat)
  | k :: ks, l :: ls =>
    match parseOperand labels k l with
    | .error e => .error e
    | .ok v =>
      match parseOperands labels ks ls with
      | .error e => .error e
      | .ok vs => .ok (v :: vs)
  | _, _ => .ok []

/-! ### Pass 2: encoding (R270 to R272, R280, R281) -/

/-- The operand list of a line: `rest` cut at every comma and each piece trimmed; an empty piece or more than three pieces do not fit the
grammar (R271). -/
def operandList (rest : List Char) : Except Issue (List (List Char)) :=
  if rest.isEmpty then .ok []
  else
    let pieces := (cutAt ',' rest).map trim
    if pieces.any List.isEmpty || decide (pieces.length > 3) then .error (.err .syntaxError) else .ok pieces

/-- An instruction line: grammar, then arity, then operands, then the encoding (R271, R272, R284). -/
def emitInstruction (labels : LabelTable) (m : Mnemonic) (rest : List Char) : Except Issue (List Byte) :=
  match operandList rest with
  | .error e => .error e
  | .ok ops =>
    if ops.length ≠ m.arity then .error (.err .operandCount)
    else
      match parseOperands labels m.operands ops with
      | .error e => .error e
      | .ok vs =>
        match (Term.mk m vs).toInstr with
        | some i => .ok (encodeBytes i)
        | none => .error (.err .operandFormat)

/-- The one operand of a data line (R280). -/
def dataOperand (rest : List Char) : Except Issue (List Char) :=
  match operandList rest with
  | .error e => .error e
  | .ok [l] => .ok l
  | .ok _ => .error (.err .operandCount)

/-- `DW #HHHH`: two bytes, high byte first (R280). -/
def emitWord (rest : List Char) : Except Issue (List Byte) :=
  match dataOperand rest with
  | .error e => .error e
  | .ok ('#' :: ds) =>
    match exactDigits hexDigit 16 4 ds with
    | .error e => .error e
    | .ok v => .ok [hiByte (BitVec.ofNat 16 v), loByte (BitVec.ofNat 16 v)]
  | .ok _ => .error (.err .operandFormat)

/-- `DB $bbbbbbbb`: one byte, first character bit 7 (R281). -/
def emitByte (rest : List Char) : Except Issue (List Byte) :=
  match dataOperand rest with
  | .error e => .error e
  | .ok ('$' :: ds) =>
    match exactDigits bitValue 2 8 ds with
    | .error e => .error e
    | .ok v => .ok [BitVec.ofNat 8 v]
  | .ok _ => .error (.err .operandFormat)

/-- The bytes of a line (R270). -/
def emitLine (labels : LabelTable) (c : LineClass) : Except Issue (List Byte) :=
  match c with
  | .instruction m rest => emitInstruction labels m rest
  | .dataWord rest => emitWord rest
  | .dataByte rest => emitByte rest
  | .unknown => .error (.err .unknownInstruction)
  | .empty => .ok []
  | .directive => .ok []
  | .label _ => .ok []

/-- Pass 2 over the lines in order: the concatenation of what each line emits; the first issue ends the call (R261, R270). -/
def emit (labels : LabelTable) : List Line → Except Stop (List Byte)
  | [] => .ok []
  | l :: rest =>
    match emitLine labels l.cls with
    | .error e => .error (l.stop e)
    | .ok bs =>
      match emit labels rest with
      | .error e => .error e
      | .ok more => .ok (bs ++ more)

/-- `assembleSource(text) -> bytes` (R260, R261): pass 1 over all lines, then pass 2. -/
def assembleSource (text : List Char) : Except Stop (List Byte) :=
  match resolve (sourceLines text) Config.romBase [] with
  | .error e => .error e
  | .ok (_, labels) => emit labels (sourceLines text)

/-- `assembleSource` of a string. -/
def assembleString (text : String) : Except Stop (List Byte) := assembleSource text.toList

end Sys2Proof.Assembler
end

