-- ==== Sys2Proof/Machine/HostInterface.lean ====
section
/-! DEFINITION. What the host can do to the engine between steps (spec/70_reset_and_hazards.md R350 to R358). -/

namespace Sys2Proof.Machine

/-- `loadRom(bytes)` (R352, R353): too long an image latches RomTooLarge and nothing else; else the font at FONT_BASE and the image at 0x200,
and nothing else. -/
def State.loadRom (s : State) (bytes : List Byte) : State :=
  if bytes.length > Config.romMax then s.raise (.romTooLarge bytes.length)
  else s.setMem (Memory.storeBytes (Memory.storeBytes s.mem fontBase.toNat font) Config.romBase bytes)

/-- The boot state (R354): reset, then loadRom. -/
def State.boot (seed : Option Int) (bytes : List Byte) : State := (State.resetWith seed).loadRom bytes

/-- `dumpState()` (R35, 93_implementation_defined.md U24): the whole state; it changes nothing. -/
def State.dumpState (s : State) : State := s

/-- The frame buffer as the host reads it: 2048 pixels, element `64*y + x` (R197, D26). -/
def State.readFrameBuffer (s : State) : List Bool := s.fb.pixels

/-- The operations of R358 that change state. -/
inductive HostOp where
  /-- `reset(seed?)` -/
  | reset (seed : Option Int)
  /-- `loadRom(bytes)` -/
  | loadRom (bytes : List Byte)
  /-- `step(elapsedMs)` -/
  | step (elapsed : Millis)
  deriving DecidableEq, Repr

/-- One operation of the host on the engine (R358). -/
def hostAct (op : HostOp) (s : State) : Outcome :=
  match op with
  | .reset seed => .next (s.hostReset seed)
  | .loadRom bytes => .next (s.loadRom bytes)
  | .step e => stepWith e s

/-- A sequence of operations of the host, ended at the first outcome that is no next state. -/
def hostRun : List HostOp → State → Outcome
  | [], s => .next s
  | op :: rest, s =>
    match hostAct op s with
    | .next t => hostRun rest t
    | .fault r => .fault r
    | .refused r => .refused r

end Sys2Proof.Machine
end

