-- ==== Sys2Proof/Safety.lean ====
section
/-! DEFINITION. What counts as a safe run (spec/60_exceptions.md R328, 40_control_flow.md R129), and the invariants the spec states of the
state between steps (10_state.md R24, R26, R31, R37). -/

namespace Sys2Proof.Machine

/-- The engine executes: no fault is latched and the run has not finished (R129). -/
def State.Running (s : State) : Prop := s.fault = none ∧ s.finished = false

/-- Gone wrong: a fault is latched (R328). Never a successful end of a run. -/
def State.GoneWrong (s : State) : Prop := s.fault ≠ none

/-- The normal end of a run: `finished`, and no fault (R129). -/
def State.FinishedWell (s : State) : Prop := s.finished = true ∧ s.fault = none

/-- SP lies in the stack window with room for its slot, at an even address: 0xEA0, 0xEA2, …, 0xEFE (R24). -/
def State.StackOk (s : State) : Prop :=
  minStack.toNat ≤ s.sp.toNat ∧ s.sp.toNat + 1 ≤ maxStack.toNat ∧ s.sp.toNat % 2 = 0

/-- DTacc lies in `[0, 16.6)` and is 0 whenever DT is 0 (R26). -/
def State.TimerOk (s : State) : Prop :=
  0 ≤ s.dtAcc ∧ s.dtAcc < timerPeriod ∧ (s.dt = 0#8 → s.dtAcc = 0)

/-- Memory is in its canonical form, every listed address inside the 4096 bytes (R27). -/
def State.MemOk (s : State) : Prop := Memory.wf s.mem = true

/-- The invariant of the engine between operations of the host. -/
structure State.Inv (s : State) : Prop where
  mem : s.MemOk
  stack : s.StackOk
  timer : s.TimerOk
  /-- `playSound` is always false (R31). -/
  sound : s.playSound = false

/-- A state with a latched fault is not finished (R328). Steps keep this; `loadRom` of too long an image on a finished machine does not (R353). -/
def State.EndOk (s : State) : Prop := s.fault ≠ none → s.finished = false

end Sys2Proof.Machine
end

