-- ==== Sys2Proof/Certificates/Slice0/Obligations.lean ====
section
/-! DEFINITION. The statements about the model, made from the numbered rules of spec/. A statement that rests on a choice the spec marks as
its own ([decision], [derived], [from general knowledge]) or on a choice of this model says so in its docstring. "Putting back" the named fields
of the earlier state and getting that state means that nothing else has changed. -/

open Sys2Proof Sys2Proof.Machine

namespace Sys2Proof.Machine

/-- The big-endian word in the two bytes at `a` (R62). -/
def wordIn (s : State) (a : Nat) : Word := wordOfBytes (s.byteAt a) (s.byteAt (a + 1))

/-- The illegal opcodes, class by class, as the table of R98 lists them. -/
def illegalWord (op : Word) : Prop :=
  (op.extractLsb' 12 4 = 0x0#4 ∧ op ≠ 0x00E0#16 ∧ op ≠ 0x00EE#16) ∨
  (op.extractLsb' 12 4 = 0x5#4 ∧ fieldN op ≠ 0#4) ∨
  (op.extractLsb' 12 4 = 0x8#4 ∧ fieldN op ∈ [0x8#4, 0x9#4, 0xA#4, 0xB#4, 0xC#4, 0xD#4, 0xF#4]) ∨
  (op.extractLsb' 12 4 = 0x9#4 ∧ fieldN op ≠ 0#4) ∨
  (op.extractLsb' 12 4 = 0xE#4 ∧ fieldNN op ∉ [0x9E#8, 0xA1#8]) ∨
  (op.extractLsb' 12 4 = 0xF#4 ∧
    fieldNN op ∉ [0x07#8, 0x0A#8, 0x15#8, 0x18#8, 0x1E#8, 0x29#8, 0x33#8, 0x55#8, 0x65#8])

/-- The instruction raises a fault in this state: the cases of R320 that execution can raise. -/
def execRaises (i : Instr) (s : State) : Prop :=
  (∃ nnn, i = .call nnn ∧ s.sp.toNat + 2 > maxStack.toNat) ∨
  (∃ x y n, i = .draw x y n ∧ n ≠ 0#4 ∧ s.i.toNat + n.toNat > 0x1000) ∨
  (∃ x, i = .bcd x ∧ s.i.toNat + 2 > 0xFFF) ∨
  (∃ x, i = .stor x ∧ s.i.toNat + x.toNat > 0xFFF) ∨
  (∃ x, i = .read x ∧ s.i.toNat + x.toNat > 0xFFF)

/-- A set sprite bit lies over the target (px, py): the sprite has `n` rows from I on, its top left corner is (x0, y0), bit 7 of a byte is
its leftmost pixel (R191, R192). -/
def spriteSets (s : State) (n : Nibble) (x0 y0 px py : Nat) : Bool :=
  decide (y0 ≤ py ∧ py < y0 + n.toNat ∧ x0 ≤ px ∧ px ≤ x0 + 7) &&
    (s.byteAt (s.i.toNat + (py - y0))).getLsbD (7 - (px - x0))

end Sys2Proof.Machine

/-! ### Encoding and decoding -/

/-- Words written out from the spec decode to the instructions they stand for: the three encodings DOC00 prints (R103), and words of the
table at the end of V-ASM in 95_test_vectors.md; an illegal word is rejected by name. -/
def Obligations.DecodesPrintedWords : Prop :=
  decode 0x00EE#16 = .ok .rts ∧ decode 0x6A6E#16 = .ok (.load 0xA#4 0x6E#8) ∧
  decode 0xDA6E#16 = .ok (.draw 0xA#4 0x6#4 0xE#4) ∧ decode 0x1ABC#16 = .ok (.jump 0xABC#12) ∧
  decode 0x8346#16 = .ok (.shr 0x3#4 0x4#4) ∧ decode 0xF365#16 = .ok (.read 0x3#4) ∧
  decode 0xE3A1#16 = .ok (.skup 0x3#4) ∧ decode 0x5121#16 = .error (.unmatched 0x5121#16)

/-- R103, forward: the word of every instruction decodes to that instruction, every operand at every value. The opcode numbers of R96
are for 30 rows general knowledge (93_implementation_defined.md G1). -/
def Obligations.DecodeOfEncode : Prop := ∀ i : Instr, decode (encode i) = .ok i

/-- R103, converse (the spec marks it [derived: from rules R95 and R96]): a legal opcode is the encoding of the one instruction it decodes to. -/
def Obligations.EncodeOfDecode : Prop := ∀ (op : Word) (i : Instr), decode op = .ok i → encode i = op

/-- R103 on terms (mnemonic and operand values): a well-formed term has an instruction, which stands for that term; an ill-formed term has
none; and the term of an instruction gives it back. -/
def Obligations.TermsAndInstructionsAgree : Prop :=
  (∀ t : Term, t.wellFormed = true → ∃ i, t.toInstr = some i ∧ i.toTerm = t) ∧
  (∀ t : Term, t.wellFormed = false → t.toInstr = none) ∧
  (∀ i : Instr, i.toTerm.toInstr = some i)

/-- R95: an opcode decodes to an instruction exactly when it matches a row of the table by mask and match, and then to that row's mnemonic with
the fields cut from it; in particular no opcode matches two rows (the disjointness is marked [derived]). -/
def Obligations.DecodeFollowsTable : Prop :=
  ∀ (op : Word) (i : Instr),
    decode op = .ok i ↔ ∃ r ∈ table, op &&& r.mask = r.value ∧ i = instrOf r.mnemonic op

/-- R98: the opcodes the decoder rejects are exactly those of the table of illegal opcodes (the spec marks it [derived: complement of the masks],
with the decision D17 on class 0). -/
def Obligations.IllegalOpcodesAreRejected : Prop :=
  ∀ op : Word, decode op = .error (.unmatched op) ↔ illegalWord op

/-! ### The step cycle -/

/-- R120, R122, R123: on a running state whose PC is at most 0xFFE, when the two bytes at PC decode to an instruction, the step is `exec` of that
instruction on the state after the timer phase with `frameBufferUpdated` cleared; a fault it raises is taken in the state before the timer
phase. The place of the timer phase is the spec's decision D14, the rollback D7, the clearing D19. -/
def Obligations.StepRunsDecodedInstruction : Prop :=
  ∀ (e : Millis) (s : State) (i : Instr), s.Running → s.pc.toNat ≤ 0xFFE → decode (wordIn s s.pc.toNat) = .ok i →
    (∀ t, exec i ((timerPhase e s).setFbu false) = .next t → t.fault = none → stepWith e s = .next t) ∧
    (∀ t f, exec i ((timerPhase e s).setFbu false) = .next t → t.fault = some f → stepWith e s = .next (s.raise f))

/-- The model's own convention (log 5): `step` is the spec's `step(elapsedMs)` with the next argument of the queue, or with a free value when
the queue is empty; the argument is taken either way. -/
def Obligations.StepTakesElapsedArgument : Prop :=
  ∀ s : State, s.Running →
    (∀ e rest, s.elapsedQueue = e :: rest → step s = stepWith e { s with elapsedQueue := rest }) ∧
    (s.elapsedQueue = [] → step s = stepWith (Config.freeElapsed s.freeCount) { s with freeCount := s.freeCount + 1 })

/-- R129 (the spec's decisions D4 and D7): a step on a state with a fault or finished changes nothing at all. -/
def Obligations.EndedStepChangesNothing : Prop :=
  ∀ (e : Millis) (s : State), (s.fault ≠ none ∨ s.finished = true) → stepWith e s = .next s ∧ step s = .next s

/-- R321, R327: an opcode that matches no row latches UnknownOpcode with the opcode and the PC, and nothing else changes, the timer
included (the rollback is the spec's decision D7). -/
def Obligations.UnknownOpcodeIsLatched : Prop :=
  ∀ (e : Millis) (s : State), s.Running → s.pc.toNat ≤ 0xFFE → illegalWord (wordIn s s.pc.toNat) →
    stepWith e s = .next { s with fault := some (.unknownOpcode (wordIn s s.pc.toNat) s.pc) }

/-- R122, R65 (the spec's decision D5): a fetch with PC above 0xFFE latches AddressOutOfRange with the lowest byte address outside memory, and
nothing else changes. -/
def Obligations.FetchAboveMemoryIsLatched : Prop :=
  ∀ (e : Millis) (s : State), s.Running → s.pc.toNat > 0xFFE →
    stepWith e s = .next { s with fault := some (.addressOutOfRange (max s.pc.toNat 0x1000)) }

/-- R9, in this model (a latched fault is a next state, log 12): every instruction and every step answers a next state; nothing is refused. -/
def Obligations.EveryStepAnswersNext : Prop :=
  (∀ (i : Instr) (s : State), ∃ t, exec i s = .next t) ∧ (∀ s : State, ∃ t, step s = .next t)

/-- R327 (the spec's decision D7): a step that latches a fault leaves every other piece of state as it was before the step: no register, memory,
frame buffer or timer change remains. -/
def Obligations.FaultLeavesEverythingElse : Prop :=
  ∀ (e : Millis) (s t : State) (f : Fault), s.Running → stepWith e s = .next t → t.fault = some f →
    t = { s with fault := some f }

/-- R320, R325, R329 (with the decisions D2, D5): on a running state with SP in its window a step latches a fault exactly when the fetch leaves
memory, the opcode is illegal, or the instruction is a CALL without room or an access through I outside memory. -/
def Obligations.StepFaultsExactlyWhen : Prop :=
  ∀ (e : Millis) (s t : State), s.Running → s.StackOk → stepWith e s = .next t →
    (t.fault ≠ none ↔
      s.pc.toNat > 0xFFE ∨ illegalWord (wordIn s s.pc.toNat) ∨
        ∃ i, decode (wordIn s s.pc.toNat) = .ok i ∧ execRaises i s)

/-! ### Invariants -/

/-- R39: the state after reset, with any seed or none, meets the invariant of R24, R26, R27 and R31 and is running. -/
def Obligations.ResetMeetsInvariant : Prop :=
  State.reset.Inv ∧ ∀ seed, (State.resetWith seed).Inv ∧ (State.resetWith seed).Running

/-- R24, R26, R27, R31: every step keeps the invariant: memory in its canonical form inside 4096 bytes, SP even and in its window, the accumulator in
[0, 16.6) and 0 when DT is 0, `playSound` false. -/
def Obligations.StepKeepsInvariant : Prop := ∀ s t : State, s.Inv → step s = .next t → t.Inv

/-- R358: every sequence of operations of the host (reset, loadRom, step, in any order and with any arguments) keeps the invariant. -/
def Obligations.HostRunKeepsInvariant : Prop :=
  ∀ (ops : List HostOp) (s t : State), s.Inv → hostRun ops s = .next t → t.Inv

/-- R328: steps never make a state that is both finished and faulted. -/
def Obligations.StepsNeverFinishAFaultedRun : Prop := ∀ s t : State, s.EndOk → step s = .next t → t.EndOk

/-! ### Whole-machine rules -/

/-- R181: nothing but RAND advances the generator, and no instruction changes the seed. The last clause also says that no instruction but RAND advances
`freeCount`: that counter of free values is the model's own field (log 6, DESIGN CHOICE) and no part of R181. -/
def Obligations.OnlyRandAdvancesGenerator : Prop :=
  ∀ (i : Instr) (s t : State), exec i s = .next t →
    t.rngSeed = s.rngSeed ∧
    ((∃ x nn, i = .rand x nn) → t.rngCount = s.rngCount + 1) ∧
    ((¬ ∃ x nn, i = .rand x nn) → t.rngCount = s.rngCount ∧ t.freeCount = s.freeCount)

/-- R29: `finished` is set only by RTS, when the bottom stack slot is popped and holds zero, and is cleared by no instruction. With SP in its
window (R24). -/
def Obligations.OnlyRtsFinishes : Prop :=
  ∀ (i : Instr) (s t : State), s.StackOk → exec i s = .next t →
    (t.finished = true ↔
      s.finished = true ∨
        (i = .rts ∧ (s.sp = minStack ∨ s.sp = minStack + 2#16) ∧ wordIn s minStack.toNat = 0#16))

/-- R22, R24, R25, R31, R76: which instructions write I, SP, DT, memory, the frame buffer and the host flag; `playSound` is written by none. -/
def Obligations.StateWriters : Prop :=
  ∀ (i : Instr) (s t : State), exec i s = .next t →
    ((∀ nnn x, i ≠ .loadi nnn ∧ i ≠ .addi x ∧ i ≠ .ldspr x) → t.i = s.i) ∧
    ((∀ nnn, i ≠ .call nnn ∧ i ≠ .rts) → t.sp = s.sp) ∧
    ((∀ x, i ≠ .loadd x) → t.dt = s.dt ∧ t.dtAcc = s.dtAcc) ∧
    ((∀ nnn x, i ≠ .call nnn ∧ i ≠ .rts ∧ i ≠ .bcd x ∧ i ≠ .stor x) → ∀ a, t.byteAt a = s.byteAt a) ∧
    ((∀ x y n, i ≠ .clr ∧ i ≠ .draw x y n) → t.fb = s.fb ∧ t.frameBufferUpdated = s.frameBufferUpdated) ∧
    t.playSound = s.playSound

/-- R21 (its last sentence rests on the spec's decision D12): an instruction that is none of the six flag writers and does not name VF as its
destination leaves VF unchanged; the destinations are those of LOAD, ADDB, MOVE, OR, AND, XOR, RAND, MOVED and of READ VF. -/
def Obligations.VfWriters : Prop :=
  ∀ (i : Instr) (s t : State), exec i s = .next t →
    (∀ x y n, i ≠ .add x y ∧ i ≠ .sub x y ∧ i ≠ .subn x y ∧ i ≠ .shr x y ∧ i ≠ .shl x y ∧ i ≠ .draw x y n) →
    (∀ nn y, i ≠ .load VF nn ∧ i ≠ .addb VF nn ∧ i ≠ .move VF y ∧ i ≠ .or VF y ∧ i ≠ .and VF y ∧ i ≠ .xor VF y ∧
      i ≠ .rand VF nn ∧ i ≠ .moved VF ∧ i ≠ .read VF) →
    t.getV VF = s.getV VF

/-! ### Load, move, logic, arithmetic -/

/-- R150: LOAD: the register holds NN, VF included as a destination; PC + 2; nothing else. -/
def Obligations.LoadImmediate : Prop :=
  rowOf .load = ⟨.load, .fxb, 0x6000#16, 0xF000#16⟩ ∧
  ∀ (x : RegIdx) (nn : Byte) (s : State), ∃ t, exec (.load x nn) s = .next t ∧
    t.getV x = nn ∧ (∀ y, y ≠ x → t.getV y = s.getV y) ∧ t.pc = s.pc + 2#16 ∧
    { t with v := s.v, pc := s.pc } = s ∧ ∀ a, t.byteAt a = s.byteAt a

/-- R151 (an instruction of general knowledge; VF untouched is the spec's decision D12): ADDB: the sum modulo 256, no flag. -/
def Obligations.AddImmediateSetsNoFlag : Prop :=
  ∀ (x : RegIdx) (nn : Byte) (s : State), ∃ t, exec (.addb x nn) s = .next t ∧
    (t.getV x).toNat = ((s.getV x).toNat + nn.toNat) % 256 ∧ (∀ y, y ≠ x → t.getV y = s.getV y) ∧
    t.pc = s.pc + 2#16 ∧ { t with v := s.v, pc := s.pc } = s ∧ ∀ a, t.byteAt a = s.byteAt a

/-- R152 to R155 (instructions of general knowledge; VF untouched is the spec's decision D12): MOVE, OR, AND, XOR write the result to V[x], bit by
bit, and nothing else but PC. -/
def Obligations.MoveAndLogic : Prop :=
  ∀ (x y : RegIdx) (s : State),
    (∃ t, exec (.move x y) s = .next t ∧ t.getV x = s.getV y ∧ (∀ z, z ≠ x → t.getV z = s.getV z) ∧
      t.pc = s.pc + 2#16 ∧ { t with v := s.v, pc := s.pc } = s ∧ ∀ a, t.byteAt a = s.byteAt a) ∧
    (∃ t, exec (.or x y) s = .next t ∧
      (∀ k, k < 8 → (t.getV x).getLsbD k = ((s.getV x).getLsbD k || (s.getV y).getLsbD k)) ∧
      (∀ z, z ≠ x → t.getV z = s.getV z) ∧ t.pc = s.pc + 2#16 ∧ { t with v := s.v, pc := s.pc } = s ∧
      ∀ a, t.byteAt a = s.byteAt a) ∧
    (∃ t, exec (.and x y) s = .next t ∧
      (∀ k, k < 8 → (t.getV x).getLsbD k = ((s.getV x).getLsbD k && (s.getV y).getLsbD k)) ∧
      (∀ z, z ≠ x → t.getV z = s.getV z) ∧ t.pc = s.pc + 2#16 ∧ { t with v := s.v, pc := s.pc } = s ∧
      ∀ a, t.byteAt a = s.byteAt a) ∧
    (∃ t, exec (.xor x y) s = .next t ∧
      (∀ k, k < 8 → (t.getV x).getLsbD k = ((s.getV x).getLsbD k ^^ (s.getV y).getLsbD k)) ∧
      (∀ z, z ≠ x → t.getV z = s.getV z) ∧ t.pc = s.pc + 2#16 ∧ { t with v := s.v, pc := s.pc } = s ∧
      ∀ a, t.byteAt a = s.byteAt a)

/-- R156: ADD: the sum modulo 256 in V[x], then VF = 1 iff the sum exceeds 255; with x = F the sum is lost and VF holds the flag (written last,
the spec's decision D11); nothing else but PC. -/
def Obligations.AddSetsCarry : Prop :=
  rowOf .add = ⟨.add, .fxy, 0x8004#16, 0xF00F#16⟩ ∧
  ∀ (x y : RegIdx) (s : State), ∃ t, exec (.add x y) s = .next t ∧
    (x ≠ VF → (t.getV x).toNat = ((s.getV x).toNat + (s.getV y).toNat) % 256) ∧
    ((s.getV x).toNat + (s.getV y).toNat > 255 → t.getV VF = 1#8) ∧
    ((s.getV x).toNat + (s.getV y).toNat ≤ 255 → t.getV VF = 0#8) ∧
    (∀ z, z ≠ x → z ≠ VF → t.getV z = s.getV z) ∧ t.pc = s.pc + 2#16 ∧
    { t with v := s.v, pc := s.pc } = s ∧ ∀ a, t.byteAt a = s.byteAt a

/-- R157 and R158: SUB and SUBN: the difference modulo 256 in V[x], then VF = 1 iff there is no borrow (the subtrahend is at most the minuend); with
x = F VF holds the flag (written last, the spec's decision D11); nothing else but PC. -/
def Obligations.SubtractSetsNoBorrow : Prop :=
  rowOf .sub = ⟨.sub, .fxy, 0x8005#16, 0xF00F#16⟩ ∧ rowOf .subn = ⟨.subn, .fxy, 0x8007#16, 0xF00F#16⟩ ∧
  ∀ (x y : RegIdx) (s : State),
    (∃ t, exec (.sub x y) s = .next t ∧
      (x ≠ VF → (t.getV x).toNat = ((s.getV x).toNat + 256 - (s.getV y).toNat) % 256) ∧
      ((s.getV y).toNat ≤ (s.getV x).toNat → t.getV VF = 1#8) ∧
      ((s.getV x).toNat < (s.getV y).toNat → t.getV VF = 0#8) ∧
      (∀ z, z ≠ x → z ≠ VF → t.getV z = s.getV z) ∧ t.pc = s.pc + 2#16 ∧
      { t with v := s.v, pc := s.pc } = s ∧ ∀ a, t.byteAt a = s.byteAt a) ∧
    (∃ t, exec (.subn x y) s = .next t ∧
      (x ≠ VF → (t.getV x).toNat = ((s.getV y).toNat + 256 - (s.getV x).toNat) % 256) ∧
      ((s.getV x).toNat ≤ (s.getV y).toNat → t.getV VF = 1#8) ∧
      ((s.getV y).toNat < (s.getV x).toNat → t.getV VF = 0#8) ∧
      (∀ z, z ≠ x → z ≠ VF → t.getV z = s.getV z) ∧ t.pc = s.pc + 2#16 ∧
      { t with v := s.v, pc := s.pc } = s ∧ ∀ a, t.byteAt a = s.byteAt a)

/-- R170 and R171 (X the destination and Y the source is general knowledge, G7): SHR and SHL: the source register's value shifted by one in V[x], then
VF = the bit shifted out; with x = F VF holds the bit (42_alu.md R160, the spec's decision D11); nothing else but PC. -/
def Obligations.ShiftsUseSourceRegister : Prop :=
  rowOf .shr = ⟨.shr, .fxy, 0x8006#16, 0xF00F#16⟩ ∧ rowOf .shl = ⟨.shl, .fxy, 0x800E#16, 0xF00F#16⟩ ∧
  ∀ (x y : RegIdx) (s : State),
    (∃ t, exec (.shr x y) s = .next t ∧
      (x ≠ VF → (t.getV x).toNat = (s.getV y).toNat / 2) ∧ (t.getV VF).toNat = (s.getV y).toNat % 2 ∧
      (∀ z, z ≠ x → z ≠ VF → t.getV z = s.getV z) ∧ t.pc = s.pc + 2#16 ∧
      { t with v := s.v, pc := s.pc } = s ∧ ∀ a, t.byteAt a = s.byteAt a) ∧
    (∃ t, exec (.shl x y) s = .next t ∧
      (x ≠ VF → (t.getV x).toNat = (s.getV y).toNat * 2 % 256) ∧ (t.getV VF).toNat = (s.getV y).toNat / 128 ∧
      (∀ z, z ≠ x → z ≠ VF → t.getV z = s.getV z) ∧ t.pc = s.pc + 2#16 ∧
      { t with v := s.v, pc := s.pc } = s ∧ ∀ a, t.byteAt a = s.byteAt a)

/-! ### Skips and control transfer -/

/-- R140 to R143: the four skips: PC + 4 when the comparison holds, else PC + 2; nothing else changes. The register forms have a low nibble of 0:
any other is illegal. (The opcode numbers are general knowledge, 93_implementation_defined.md G1.) -/
def Obligations.SkipsCompare : Prop :=
  rowOf .ske = ⟨.ske, .fxb, 0x3000#16, 0xF000#16⟩ ∧ rowOf .skne = ⟨.skne, .fxb, 0x4000#16, 0xF000#16⟩ ∧
  rowOf .skre = ⟨.skre, .fxy, 0x5000#16, 0xF00F#16⟩ ∧ rowOf .skrne = ⟨.skrne, .fxy, 0x9000#16, 0xF00F#16⟩ ∧
  (∀ op : Word, op.extractLsb' 12 4 = 0x5#4 ∨ op.extractLsb' 12 4 = 0x9#4 → fieldN op ≠ 0#4 →
    decode op = .error (.unmatched op)) ∧
  ∀ (x y : RegIdx) (nn : Byte) (s : State),
    (∃ t, exec (.ske x nn) s = .next t ∧ (s.getV x = nn → t.pc = s.pc + 4#16) ∧ (s.getV x ≠ nn → t.pc = s.pc + 2#16) ∧
      { t with pc := s.pc } = s ∧ ∀ a, t.byteAt a = s.byteAt a) ∧
    (∃ t, exec (.skne x nn) s = .next t ∧ (s.getV x ≠ nn → t.pc = s.pc + 4#16) ∧ (s.getV x = nn → t.pc = s.pc + 2#16) ∧
      { t with pc := s.pc } = s ∧ ∀ a, t.byteAt a = s.byteAt a) ∧
    (∃ t, exec (.skre x y) s = .next t ∧ (s.getV x = s.getV y → t.pc = s.pc + 4#16) ∧
      (s.getV x ≠ s.getV y → t.pc = s.pc + 2#16) ∧ { t with pc := s.pc } = s ∧ ∀ a, t.byteAt a = s.byteAt a) ∧
    (∃ t, exec (.skrne x y) s = .next t ∧ (s.getV x ≠ s.getV y → t.pc = s.pc + 4#16) ∧
      (s.getV x = s.getV y → t.pc = s.pc + 2#16) ∧ { t with pc := s.pc } = s ∧ ∀ a, t.byteAt a = s.byteAt a)

/-- R125: JUMP: PC holds the zero-extended address, nothing added; nothing else changes. (The next fetch faults for 0xFFF only: the last
clause.) -/
def Obligations.JumpSetsPc : Prop :=
  rowOf .jump = ⟨.jump, .fa, 0x1000#16, 0xF000#16⟩ ∧
  ∀ (nnn : Addr) (s : State), ∃ t, exec (.jump nnn) s = .next t ∧ t.pc.toNat = nnn.toNat ∧
    { t with pc := s.pc } = s ∧ (∀ a, t.byteAt a = s.byteAt a) ∧
    ((∃ f, t.fetch = .error f) ↔ nnn = 0xFFF#12)

/-- R128 (an instruction of general knowledge, the spec's decisions D16, D25): JUMPI: PC is the address plus V0, an exact sum, whatever bits 11:8 are;
nothing else changes. -/
def Obligations.JumpiAddsV0 : Prop :=
  ∀ (nnn : Addr) (s : State), ∃ t, exec (.jumpi nnn) s = .next t ∧ t.pc.toNat = nnn.toNat + (s.getV 0#4).toNat ∧
    { t with pc := s.pc } = s ∧ ∀ a, t.byteAt a = s.byteAt a

/-- R126 (layout and test are the spec's decision D2): a CALL with room pushes its own address at SP, high byte first, adds 2 to SP and jumps; no byte
outside the slot and no other state changes. Memory in canonical form (R27), which every step keeps. -/
def Obligations.CallPushesItsAddress : Prop :=
  ∀ (nnn : Addr) (s : State), s.MemOk → s.sp.toNat + 2 ≤ maxStack.toNat →
    ∃ t, exec (.call nnn) s = .next t ∧ t.pc.toNat = nnn.toNat ∧ t.sp.toNat = s.sp.toNat + 2 ∧
      wordIn t s.sp.toNat = s.pc ∧ (∀ a, a < s.sp.toNat ∨ s.sp.toNat + 2 ≤ a → t.byteAt a = s.byteAt a) ∧
      { t with pc := s.pc, sp := s.sp, mem := s.mem } = s

/-- R126, R322 (the exact test is the spec's decision D2): a CALL without room latches StackOverflow with SP and PC, and nothing else changes. -/
def Obligations.CallOverflowIsLatched : Prop :=
  ∀ (nnn : Addr) (s : State), s.sp.toNat + 2 > maxStack.toNat →
    exec (.call nnn) s = .next { s with fault := some (.stackOverflow s.sp s.pc) }

/-- R127 (the floor of SP, the cleared slot and the unchanged PC are the spec's decisions D3, D4): with SP in its window, RTS reads the slot below SP, or
the bottom slot on an empty stack. A zero in the bottom slot ends the run with PC where it is; else RTS returns to the entry plus 2 and clears
the slot. No byte outside the slot and no other state changes. -/
def Obligations.RtsReturnsOrFinishes : Prop :=
  ∀ (s : State) (slot : Nat), s.MemOk → s.StackOk →
    slot = (if s.sp = minStack then minStack.toNat else s.sp.toNat - 2) →
    ((slot = minStack.toNat ∧ wordIn s slot = 0#16) →
      ∃ t, exec .rts s = .next t ∧ t.finished = true ∧ t.sp = minStack ∧ t.pc = s.pc ∧
        { t with finished := s.finished, sp := s.sp } = s ∧ ∀ a, t.byteAt a = s.byteAt a) ∧
    (¬ (slot = minStack.toNat ∧ wordIn s slot = 0#16) →
      ∃ t, exec .rts s = .next t ∧ t.pc = wordIn s slot + 2#16 ∧ t.sp.toNat = slot ∧
        t.byteAt slot = 0#8 ∧ t.byteAt (slot + 1) = 0#8 ∧
        (∀ a, a < slot ∨ slot + 2 ≤ a → t.byteAt a = s.byteAt a) ∧
        { t with pc := s.pc, sp := s.sp, mem := s.mem } = s)

/-- R126, R127, conflict C5: an RTS that meets the stack a CALL left (SP and the memory of the window as the CALL left them) resumes 2 past the CALL
with SP as before the CALL, unless the CALL was at address 0 with an empty stack (the sentinel collision, U2). -/
def Obligations.CallThenReturnResumes : Prop :=
  ∀ (nnn : Addr) (s t u : State), s.MemOk → s.StackOk → s.sp.toNat + 2 ≤ maxStack.toNat →
    ¬ (s.sp = minStack ∧ s.pc = 0#16) → exec (.call nnn) s = .next t →
    u.MemOk → u.sp = t.sp → (∀ a, minStack.toNat ≤ a → a ≤ maxStack.toNat → u.byteAt a = t.byteAt a) →
    ∃ w, exec .rts u = .next w ∧ w.pc = s.pc + 2#16 ∧ w.sp = s.sp ∧ w.finished = u.finished

/-! ### Random -/

/-- R180, R181 (one draw whatever the mask, and the two sources of a byte, are the spec's decision D15): RAND puts the drawn byte under the mask in
V[x]: `G(seed, count)` when seeded, a free value otherwise (log 6: the statement holds for every value); the generator advances by one;
nothing else but PC and the counter of free values changes. -/
def Obligations.RandMasksTheDraw : Prop :=
  ∀ (x : RegIdx) (nn : Byte) (s : State), ∃ t, exec (.rand x nn) s = .next t ∧
    (∀ seed, s.rngSeed = some seed → t.getV x = generator seed s.rngCount &&& nn ∧ t.freeCount = s.freeCount) ∧
    (s.rngSeed = none → t.getV x = Config.freeByte s.freeCount &&& nn ∧ t.freeCount = s.freeCount + 1) ∧
    (∀ y, y ≠ x → t.getV y = s.getV y) ∧ t.rngCount = s.rngCount + 1 ∧ t.pc = s.pc + 2#16 ∧
    { t with v := s.v, pc := s.pc, rngCount := s.rngCount, freeCount := s.freeCount } = s ∧
    ∀ a, t.byteAt a = s.byteAt a

/-- R182: with seed 123 the first RAND V0,#FF leaves V0 = 3: `G(123, 0) = 3`. -/
def Obligations.PinnedSeedGivesThree : Prop :=
  generator 123 0 = 3#8 ∧
  ∀ s : State, s.rngSeed = some 123 → s.rngCount = 0 → ∃ t, exec (.rand 0#4 0xFF#8) s = .next t ∧ t.getV 0#4 = 3#8

/-! ### Display -/

/-- R190 (an instruction of general knowledge; the host flag is the spec's decision D19): CLR: all 2048 pixels 0, `frameBufferUpdated` set, PC + 2;
nothing else. -/
def Obligations.ClrClearsFrameBuffer : Prop :=
  ∀ s : State, ∃ t, exec .clr s = .next t ∧ (∀ x y, t.fb.pixel x y = false) ∧ t.frameBufferUpdated = true ∧
    t.pc = s.pc + 2#16 ∧ { t with fb := s.fb, frameBufferUpdated := s.frameBufferUpdated, pc := s.pc } = s ∧
    ∀ a, t.byteAt a = s.byteAt a

/-- R191, R193, R194 (pixel order and unreduced start coordinates are the spec's decision D23, the host flag D19, the flag last D11): when every sprite byte
lies in memory, DRAW XORs each in-bounds pixel with the sprite bit over it, VF = 1 iff a set bit lay over an in-bounds pixel that was 1, else 0;
the old values of V[x], V[y] are the coordinates; I, memory and all else unchanged. -/
def Obligations.DrawXorsSprite : Prop :=
  ∀ (x y : RegIdx) (n : Nibble) (s : State), (n = 0#4 ∨ s.i.toNat + n.toNat ≤ 0x1000) →
    ∃ t, exec (.draw x y n) s = .next t ∧
      (∀ px py, px ≤ 63 → py ≤ 31 → t.fb.pixel px py =
        (s.fb.pixel px py ^^ spriteSets s n (s.getV x).toNat (s.getV y).toNat px py)) ∧
      ((∃ px py, px ≤ 63 ∧ py ≤ 31 ∧ spriteSets s n (s.getV x).toNat (s.getV y).toNat px py = true ∧
        s.fb.pixel px py = true) → t.getV VF = 1#8) ∧
      ((∀ px py, px ≤ 63 → py ≤ 31 → spriteSets s n (s.getV x).toNat (s.getV y).toNat px py = true →
        s.fb.pixel px py = false) → t.getV VF = 0#8) ∧
      (∀ z, z ≠ VF → t.getV z = s.getV z) ∧ t.frameBufferUpdated = true ∧ t.pc = s.pc + 2#16 ∧
      { t with v := s.v, fb := s.fb, frameBufferUpdated := s.frameBufferUpdated, pc := s.pc } = s ∧
      ∀ a, t.byteAt a = s.byteAt a

/-- R194 (its restoration half, which the spec derives from R191): drawing the same sprite twice at the same place restores every pixel. Coordinates in
registers other than VF, which the first draw overwrites. -/
def Obligations.DrawTwiceRestores : Prop :=
  ∀ (x y : RegIdx) (n : Nibble) (s t u : State), x ≠ VF → y ≠ VF → s.fault = none →
    exec (.draw x y n) s = .next t → t.fault = none → exec (.draw x y n) t = .next u → u.fb = s.fb

/-- R195 (the spec's decisions D9, D10; stride and low nibble are general knowledge): LDSPR: I is FONT_BASE + 5 times the low nibble of V[x]; nothing
else but PC. -/
def Obligations.LdsprPointsAtGlyph : Prop :=
  ∀ (x : RegIdx) (s : State), ∃ t, exec (.ldspr x) s = .next t ∧
    t.i.toNat = fontBase.toNat + 5 * ((s.getV x).toNat % 16) ∧ t.pc = s.pc + 2#16 ∧
    { t with i := s.i, pc := s.pc } = s ∧ ∀ a, t.byteAt a = s.byteAt a

/-! ### Delay timer -/

/-- R211, R212 (MOVED is general knowledge; the restart of the accumulator is the spec's decision D14): MOVED copies DT to V[x]; LOADD copies V[x] to DT and
zeroes the accumulator; nothing else but PC. -/
def Obligations.DelayTimerMoves : Prop :=
  ∀ (x : RegIdx) (s : State),
    (∃ t, exec (.moved x) s = .next t ∧ t.getV x = s.dt ∧ (∀ y, y ≠ x → t.getV y = s.getV y) ∧ t.pc = s.pc + 2#16 ∧
      { t with v := s.v, pc := s.pc } = s ∧ ∀ a, t.byteAt a = s.byteAt a) ∧
    (∃ t, exec (.loadd x) s = .next t ∧ t.dt = s.getV x ∧ t.dtAcc = 0 ∧ t.pc = s.pc + 2#16 ∧
      { t with dt := s.dt, dtAcc := s.dtAcc, pc := s.pc } = s ∧ ∀ a, t.byteAt a = s.byteAt a)

/-- R210 (place, exactness, saturation and the dropped remainder are the spec's decision D14): with n the number of whole periods of 16.6 ms in the
accumulated time, DT falls by n and the remainder stays, or DT and the accumulator become 0 when n reaches DT; with DT = 0 nothing happens;
nothing but DT and DTacc changes. -/
def Obligations.TimerPhaseDecays : Prop :=
  ∀ (e : Millis) (s : State), s.TimerOk →
    (s.dt = 0#8 → timerPhase e s = s) ∧
    (s.dt ≠ 0#8 → ∃ n : Nat,
      (n : Rat) * (83 / 5) ≤ s.dtAcc + (e.num : Rat) / ((e.denPred : Rat) + 1) ∧
      s.dtAcc + (e.num : Rat) / ((e.denPred : Rat) + 1) < ((n : Rat) + 1) * (83 / 5) ∧
      (s.dt.toNat ≤ n → (timerPhase e s).dt = 0#8 ∧ (timerPhase e s).dtAcc = 0) ∧
      (n < s.dt.toNat → (timerPhase e s).dt.toNat = s.dt.toNat - n ∧
        (timerPhase e s).dtAcc = s.dtAcc + (e.num : Rat) / ((e.denPred : Rat) + 1) - (n : Rat) * (83 / 5))) ∧
    { timerPhase e s with dt := s.dt, dtAcc := s.dtAcc } = s

/-! ### Index register and memory -/

/-- R230, R231 (instructions of general knowledge; the wrap is the spec's decision D6, VF untouched D12): LOADI and ADDI write I, and nothing else but PC. -/
def Obligations.IndexLoads : Prop :=
  ∀ (nnn : Addr) (x : RegIdx) (s : State),
    (∃ t, exec (.loadi nnn) s = .next t ∧ t.i.toNat = nnn.toNat ∧ t.pc = s.pc + 2#16 ∧
      { t with i := s.i, pc := s.pc } = s ∧ ∀ a, t.byteAt a = s.byteAt a) ∧
    (∃ t, exec (.addi x) s = .next t ∧ t.i.toNat = (s.i.toNat + (s.getV x).toNat) % 65536 ∧ t.pc = s.pc + 2#16 ∧
      { t with i := s.i, pc := s.pc } = s ∧ ∀ a, t.byteAt a = s.byteAt a)

/-- R232 (the digit order is the spec's decision D24, I unchanged D13): BCD with I + 2 in memory stores the three decimal digits of V[x] at I, I + 1,
I + 2, hundreds first; no other byte and nothing else but PC changes. Memory in canonical form, which every step keeps. -/
def Obligations.BcdStoresDigits : Prop :=
  ∀ (x : RegIdx) (s : State), s.MemOk → s.i.toNat + 2 ≤ 0xFFF →
    ∃ t, exec (.bcd x) s = .next t ∧
      (s.getV x).toNat = 100 * (t.byteAt s.i.toNat).toNat + 10 * (t.byteAt (s.i.toNat + 1)).toNat +
        (t.byteAt (s.i.toNat + 2)).toNat ∧
      (t.byteAt (s.i.toNat + 1)).toNat ≤ 9 ∧ (t.byteAt (s.i.toNat + 2)).toNat ≤ 9 ∧
      (∀ a, a < s.i.toNat ∨ s.i.toNat + 3 ≤ a → t.byteAt a = s.byteAt a) ∧ t.pc = s.pc + 2#16 ∧
      { t with mem := s.mem, pc := s.pc } = s

/-- R233 (I unchanged is the spec's decision D13): STOR with I + X in memory stores V0 to VX, inclusive, from I on; no other byte and nothing else but
PC changes. Memory in canonical form, which every step keeps. -/
def Obligations.StorStoresRegisters : Prop :=
  ∀ (x : RegIdx) (s : State), s.MemOk → s.i.toNat + x.toNat ≤ 0xFFF →
    ∃ t, exec (.stor x) s = .next t ∧
      (∀ k : RegIdx, k.toNat ≤ x.toNat → t.byteAt (s.i.toNat + k.toNat) = s.getV k) ∧
      (∀ a, a < s.i.toNat ∨ s.i.toNat + x.toNat < a → t.byteAt a = s.byteAt a) ∧ t.pc = s.pc + 2#16 ∧
      { t with mem := s.mem, pc := s.pc } = s

/-- R234 (I unchanged is the spec's decision D13): READ with I + X in memory loads V0 to VX, inclusive, from I on; the other registers, memory and all
else but PC unchanged. -/
def Obligations.ReadLoadsRegisters : Prop :=
  ∀ (x : RegIdx) (s : State), s.i.toNat + x.toNat ≤ 0xFFF →
    ∃ t, exec (.read x) s = .next t ∧
      (∀ k : RegIdx, k.toNat ≤ x.toNat → t.getV k = s.byteAt (s.i.toNat + k.toNat)) ∧
      (∀ k : RegIdx, x.toNat < k.toNat → t.getV k = s.getV k) ∧ t.pc = s.pc + 2#16 ∧
      { t with v := s.v, pc := s.pc } = s ∧ ∀ a, t.byteAt a = s.byteAt a

/-- R324, R329 (the spec's decision D5): DRAW, BCD, STOR and READ that leave memory latch AddressOutOfRange with the lowest address outside, and
nothing else changes: no byte, register or pixel. -/
def Obligations.IndexAccessAboveMemoryIsLatched : Prop :=
  ∀ (x y : RegIdx) (n : Nibble) (s : State),
    (n ≠ 0#4 → s.i.toNat + n.toNat > 0x1000 →
      exec (.draw x y n) s = .next { s with fault := some (.addressOutOfRange (max s.i.toNat 0x1000)) }) ∧
    (s.i.toNat + 2 > 0xFFF →
      exec (.bcd x) s = .next { s with fault := some (.addressOutOfRange (max s.i.toNat 0x1000)) }) ∧
    (s.i.toNat + x.toNat > 0xFFF →
      exec (.stor x) s = .next { s with fault := some (.addressOutOfRange (max s.i.toNat 0x1000)) }) ∧
    (s.i.toNat + x.toNat > 0xFFF →
      exec (.read x) s = .next { s with fault := some (.addressOutOfRange (max s.i.toNat 0x1000)) })

/-- R72 (the spec derives it from R70 and R122): a STOR over the next instruction is seen by the very next fetch. -/
def Obligations.StoreIsSeenByNextFetch : Prop :=
  ∀ (x : RegIdx) (s t : State), s.MemOk → s.i.toNat + x.toNat ≤ 0xFFF → 1 ≤ x.toNat → s.i = s.pc + 2#16 →
    exec (.stor x) s = .next t → t.fetch = .ok (wordOfBytes (s.getV 0#4) (s.getV 1#4))

/-! ### Stubs -/

/-- R250 to R253 (which four opcodes are the stubs is the spec's decision D18): SKPR, SKUP, KEYD and LOADS advance PC by 2, always, and change
nothing else. -/
def Obligations.StubsOnlyAdvance : Prop :=
  rowOf .skpr = ⟨.skpr, .fx, 0xE09E#16, 0xF0FF#16⟩ ∧ rowOf .skup = ⟨.skup, .fx, 0xE0A1#16, 0xF0FF#16⟩ ∧
  rowOf .keyd = ⟨.keyd, .fx, 0xF00A#16, 0xF0FF#16⟩ ∧ rowOf .loads = ⟨.loads, .fx, 0xF018#16, 0xF0FF#16⟩ ∧
  ∀ (x : RegIdx) (s : State), ∀ i ∈ [Instr.skpr x, Instr.skup x, Instr.keyd x, Instr.loads x],
    ∃ t, exec i s = .next t ∧ t.pc = s.pc + 2#16 ∧ { t with pc := s.pc } = s ∧ ∀ a, t.byteAt a = s.byteAt a

/-! ### The host -/

/-- R39, R350, R351, R330: `reset(seed?)` on any state, halted or finished too: PC = 0x200, SP = MIN_STACK and the frame buffer cleared are DOC00's; the
zeros of V, I, DT, DTacc and memory, and the flags, are the spec's decisions D7, D8, D14, D15, D18, D19 (log 1, log 3); the seed is the argument.
The model's own two fields are kept (log 5, log 6). -/
def Obligations.HostResetValues : Prop :=
  ∀ (s : State) (seed : Option Int), ∃ t, hostAct (.reset seed) s = .next t ∧
    t.pc = 0x200#16 ∧ t.sp = minStack ∧ (∀ x y, t.fb.pixel x y = false) ∧ t.rngSeed = seed ∧ t.rngCount = 0 ∧
    (∀ x, t.getV x = 0#8) ∧ t.i = 0#16 ∧ t.dt = 0#8 ∧ t.dtAcc = 0 ∧ (∀ a, t.byteAt a = 0#8) ∧
    t.finished = false ∧ t.frameBufferUpdated = false ∧ t.playSound = false ∧ t.fault = none ∧
    t.elapsedQueue = s.elapsedQueue ∧ t.freeCount = s.freeCount

/-- R352 (FONT_BASE is the spec's decision D9, the font bytes general knowledge G3): `loadRom`: an image longer than 3232 bytes latches RomTooLarge with its length and changes nothing else; any other puts the font at
FONT_BASE and byte k of the image at 0x200 + k, and changes no other byte and nothing else. Memory in canonical form (R27). -/
def Obligations.LoadRomPlacesImage : Prop :=
  ∀ (bytes : List Byte) (s : State), s.MemOk →
    (bytes.length > 3232 →
      hostAct (.loadRom bytes) s = .next { s with fault := some (.romTooLarge bytes.length) }) ∧
    (bytes.length ≤ 3232 →
      ∃ t, hostAct (.loadRom bytes) s = .next t ∧
        (∀ k, k < 80 → t.byteAt (fontBase.toNat + k) = font.getD k 0#8) ∧
        (∀ k, k < bytes.length → t.byteAt (0x200 + k) = bytes.getD k 0#8) ∧
        (∀ a, (a < fontBase.toNat ∨ fontBase.toNat + 80 ≤ a) → (a < 0x200 ∨ 0x200 + bytes.length ≤ a) →
          t.byteAt a = s.byteAt a) ∧
        { t with mem := s.mem } = s)

/-- R354, R355, R74 (reset before loadRom is the spec's decision D22): the boot state is running, meets the invariant, and fetches the first two bytes
of the image, the first the more significant. -/
def Obligations.BootFetchesFirstRomWord : Prop :=
  ∀ (seed : Option Int) (b0 b1 : Byte) (rest : List Byte), rest.length + 2 ≤ 3232 →
    (State.boot seed (b0 :: b1 :: rest)).Running ∧ (State.boot seed (b0 :: b1 :: rest)).Inv ∧
    (State.boot seed (b0 :: b1 :: rest)).fetch = .ok (wordOfBytes b0 b1)

/-! ### The assembler -/

/-- R292: an instruction line that assembles emits two bytes, the word's high byte first, which the engine's decoder reads as the line's mnemonic with the
operand values parsed from the line. -/
def Obligations.AssembledLineDecodes : Prop :=
  ∀ (labels : Assembler.LabelTable) (m : Mnemonic) (rest : List Char) (bs : List Byte),
    Assembler.emitInstruction labels m rest = .ok bs →
    ∃ ops vs op i, Assembler.operandList rest = .ok ops ∧ ops.length = m.arity ∧
      Assembler.parseOperands labels m.operands ops = .ok vs ∧ bs = [hiByte op, loByte op] ∧
      decode op = .ok i ∧ i.toTerm = ⟨m, vs⟩

/-- R285, R268 (the advance of DB by 1 is the spec's decision D21): the image has two bytes for each instruction and DW line and one for each DB line, and
the pointer after pass 1 is 0x200 plus its length. -/
def Obligations.ImageLengthMatchesPointer : Prop :=
  ∀ (text : List Char) (bytes : List Byte), Assembler.assembleSource text = .ok bytes →
    bytes.length = ((Assembler.sourceLines text).map fun l => Assembler.width l.cls).sum ∧
    ∃ labels, Assembler.resolve (Assembler.sourceLines text) 0x200 [] = .ok (0x200 + bytes.length, labels)

/-- R267, R269, R286: in the Label Table that pass 2 reads, a label's value is the address of the next byte emitted after its line, whatever
stands before and after it. -/
def Obligations.LabelIsAddressOfNextByte : Prop :=
  ∀ (before after : List Assembler.Line) (l : Assembler.Line) (name : List Char) (ptr : Nat) (labels : Assembler.LabelTable),
    l.cls = .label name → Assembler.resolve (before ++ l :: after) 0x200 [] = .ok (ptr, labels) →
    Assembler.findLabel labels name = some (0x200 + (before.map fun k => Assembler.width k.cls).sum)

/-- R283, with R261 (that the first error ends the call is the spec's decision D20): an assembly error carries the number and the original text of
the line it comes from: all lines before that line passed, and the line itself failed with this kind, either in pass 1, or in pass 2 after
pass 1 went over the whole source. -/
def Obligations.AssemblyErrorNamesItsLine : Prop :=
  ∀ (text : List Char) (k : Assembler.ErrorKind) (n : Nat) (lineText : List Char),
    Assembler.assembleSource text = .error (.error k n lineText) →
    ∃ before after, Assembler.sourceLines text = before ++ ⟨n, lineText⟩ :: after ∧ n = before.length + 1 ∧
      ((∃ ptr labels, Assembler.resolve before 0x200 [] = .ok (ptr, labels) ∧
          Assembler.resolveLine (Assembler.Line.mk n lineText).cls ptr labels = .error (.err k)) ∨
        (∃ ptr labels bytes, Assembler.resolve (Assembler.sourceLines text) 0x200 [] = .ok (ptr, labels) ∧
          Assembler.emit labels before = .ok bytes ∧
          Assembler.emitLine labels (Assembler.Line.mk n lineText).cls = .error (.err k)))

/-- R289: the worked example of DOC00 assembles to its ten bytes, and the pointer ends at 0x20A. -/
def Obligations.WorkedExampleAssembles : Prop :=
  Assembler.assembleString "LOAD V1,1\nLOAD V2,#0A\nLOAD VB,15\nLOAD VF,#FE\nRTS" =
    .ok [0x61#8, 0x01#8, 0x62#8, 0x0A#8, 0x6B#8, 0x0F#8, 0x6F#8, 0xFE#8, 0x00#8, 0xEE#8] ∧
  Assembler.resolve (Assembler.sourceLines "LOAD V1,1\nLOAD V2,#0A\nLOAD VB,15\nLOAD VF,#FE\nRTS".toList) 0x200 [] = .ok (0x20A, [])
end

