-- ==== Sys2Proof/Laws/Encoding.lean ====
section
/-! SUPPORT. The fields of an encoded word, the disjointness of the table's rows, and that an instruction's term is well-formed. -/

namespace Sys2Proof

/-! ### Places and masks -/

@[simp] theorem placeX_and_F000 : ∀ x : RegIdx, placeX x &&& 0xF000#16 = 0#16 := by decide
@[simp] theorem placeX_and_F00F : ∀ x : RegIdx, placeX x &&& 0xF00F#16 = 0#16 := by decide
@[simp] theorem placeX_and_F0FF : ∀ x : RegIdx, placeX x &&& 0xF0FF#16 = 0#16 := by decide
@[simp] theorem placeY_and_F000 : ∀ y : RegIdx, placeY y &&& 0xF000#16 = 0#16 := by decide
@[simp] theorem placeY_and_F00F : ∀ y : RegIdx, placeY y &&& 0xF00F#16 = 0#16 := by decide
@[simp] theorem nibble_and_F000 : ∀ n : Nibble, n.setWidth 16 &&& 0xF000#16 = 0#16 := by decide
@[simp] theorem byte_and_F000 : ∀ nn : Byte, nn.setWidth 16 &&& 0xF000#16 = 0#16 := by decide +kernel
@[simp] theorem addr_and_F000 : ∀ nnn : Addr, nnn.setWidth 16 &&& 0xF000#16 = 0#16 := by decide +kernel

/-! ### Fields of the places (R92) -/

@[simp] theorem fieldX_placeX : ∀ x : RegIdx, fieldX (placeX x) = x := by decide
@[simp] theorem fieldX_placeY : ∀ y : RegIdx, fieldX (placeY y) = 0#4 := by decide
@[simp] theorem fieldX_nibble : ∀ n : Nibble, fieldX (n.setWidth 16) = 0#4 := by decide
@[simp] theorem fieldX_byte : ∀ nn : Byte, fieldX (nn.setWidth 16) = 0#4 := by decide +kernel
@[simp] theorem fieldY_placeX : ∀ x : RegIdx, fieldY (placeX x) = 0#4 := by decide
@[simp] theorem fieldY_placeY : ∀ y : RegIdx, fieldY (placeY y) = y := by decide
@[simp] theorem fieldY_nibble : ∀ n : Nibble, fieldY (n.setWidth 16) = 0#4 := by decide
@[simp] theorem fieldN_placeX : ∀ x : RegIdx, fieldN (placeX x) = 0#4 := by decide
@[simp] theorem fieldN_placeY : ∀ y : RegIdx, fieldN (placeY y) = 0#4 := by decide
@[simp] theorem fieldN_nibble : ∀ n : Nibble, fieldN (n.setWidth 16) = n := by decide
@[simp] theorem fieldNN_placeX : ∀ x : RegIdx, fieldNN (placeX x) = 0#8 := by decide
@[simp] theorem fieldNN_byte : ∀ nn : Byte, fieldNN (nn.setWidth 16) = nn := by decide +kernel
@[simp] theorem fieldNNN_addr : ∀ nnn : Addr, fieldNNN (nnn.setWidth 16) = nnn := by decide +kernel

@[simp] theorem fieldX_or (a b : Word) : fieldX (a ||| b) = fieldX a ||| fieldX b :=
  BitVec.eq_of_getLsbD_eq fun i hi => by simp [fieldX, hi]
@[simp] theorem fieldY_or (a b : Word) : fieldY (a ||| b) = fieldY a ||| fieldY b :=
  BitVec.eq_of_getLsbD_eq fun i hi => by simp [fieldY, hi]
@[simp] theorem fieldN_or (a b : Word) : fieldN (a ||| b) = fieldN a ||| fieldN b :=
  BitVec.eq_of_getLsbD_eq fun i hi => by simp [fieldN, hi]
@[simp] theorem fieldNN_or (a b : Word) : fieldNN (a ||| b) = fieldNN a ||| fieldNN b :=
  BitVec.eq_of_getLsbD_eq fun i hi => by simp [fieldNN, hi]
@[simp] theorem fieldNNN_or (a b : Word) : fieldNNN (a ||| b) = fieldNNN a ||| fieldNNN b :=
  BitVec.eq_of_getLsbD_eq fun i hi => by simp [fieldNNN, hi]

theorem or_and_distrib (a b m : Word) : (a ||| b) &&& m = (a &&& m) ||| (b &&& m) := by
  ext i hi; simp [Bool.and_or_distrib_right]

/-! ### The table (R95, R96) -/

/-- The fixed bits of any two rows differ at a bit both fix. -/
theorem table_disjoint :
    table.Pairwise fun r r' => r.mask &&& r'.mask &&& (r.value ^^^ r'.value) ≠ 0#16 := by decide

/-- No word matches two rows whose fixed bits differ. -/
theorem not_matches_both {r r' : Row} (h : r.mask &&& r'.mask &&& (r.value ^^^ r'.value) ≠ 0#16) {op : Word}
    (hr : r.matches op = true) : r'.matches op = false := by
  simp only [Row.matches, beq_iff_eq] at hr
  by_contra hc
  simp only [Row.matches, Bool.not_eq_false, beq_iff_eq] at hc
  apply h
  rw [← hr, ← hc]
  ext i hi
  simp
  cases r.mask[i] <;> cases r'.mask[i] <;> simp

/-- Every row is the row of its mnemonic. -/
theorem rowOf_of_mem {r : Row} (h : r ∈ table) : r = rowOf r.mnemonic := by
  have hall : ∀ r ∈ table, r = rowOf r.mnemonic := by decide
  exact hall r h

theorem rowOf_mem (m : Mnemonic) : rowOf m ∈ table := by cases m <;> decide

@[simp] theorem rowOf_mnemonic (m : Mnemonic) : (rowOf m).mnemonic = m := by cases m <;> rfl

/-- In a list of pairwise disjoint rows the search finds the one row that matches. -/
theorem find?_eq_some_of_disjoint {l : List Row} {r : Row} {op : Word}
    (hp : l.Pairwise fun r r' => r.mask &&& r'.mask &&& (r.value ^^^ r'.value) ≠ 0#16) (hm : r ∈ l)
    (h : r.matches op = true) : l.find? (·.matches op) = some r := by
  induction l with
  | nil => simp at hm
  | cons q l ih =>
    rw [List.pairwise_cons] at hp
    rcases List.mem_cons.mp hm with rfl | hm'
    · simp [h]
    · have hq : q.matches op = false := by
        by_contra hc
        rw [Bool.not_eq_false] at hc
        rw [not_matches_both (hp.1 r hm') hc] at h
        cases h
      rw [List.find?_cons, hq]
      exact ih hp.2 hm'

/-- The row a word matches is the row the decoder finds. -/
theorem findRow_of_matches {r : Row} {op : Word} (hm : r ∈ table) (h : r.matches op = true) : findRow op = some r :=
  find?_eq_some_of_disjoint table_disjoint hm h

/-! ### Bytes of a word (R91) -/

@[simp] theorem wordOfBytes_hiByte_loByte (w : Word) : wordOfBytes (hiByte w) (loByte w) = w :=
  BitVec.eq_of_getLsbD_eq fun i hi => by
    unfold wordOfBytes hiByte loByte
    rw [BitVec.getLsbD_append]
    by_cases h : i < 8
    · simp [h]
    · simp [h, show i - 8 < 8 by omega, show 8 + (i - 8) = i by omega]

@[simp] theorem hiByte_wordOfBytes (a b : Byte) : hiByte (wordOfBytes a b) = a :=
  BitVec.eq_of_getLsbD_eq fun i hi => by
    unfold wordOfBytes hiByte
    rw [BitVec.getLsbD_extractLsb', BitVec.getLsbD_append]
    simp [hi]

@[simp] theorem loByte_wordOfBytes (a b : Byte) : loByte (wordOfBytes a b) = b :=
  BitVec.eq_of_getLsbD_eq fun i hi => by
    unfold wordOfBytes loByte
    rw [BitVec.getLsbD_extractLsb', BitVec.getLsbD_append]
    simp [hi]

/-! ### Terms -/

theorem reg_fits (x : RegIdx) : x.toNat < OperandKind.reg.bound := x.isLt
theorem byte_fits (nn : Byte) : nn.toNat < OperandKind.byte.bound := nn.isLt
theorem nibble_fits (n : Nibble) : n.toNat < OperandKind.nibble.bound := n.isLt
theorem addr_fits (nnn : Addr) : nnn.toNat < OperandKind.addr.bound := nnn.isLt

/-- The range check of one operand and of the rest (R104). -/
@[simp] theorem valuesFit_cons (k : OperandKind) (ks : List OperandKind) (v : Nat) (vs : List Nat) :
    valuesFit (k :: ks) (v :: vs) = true ↔ v < k.bound ∧ valuesFit ks vs = true := by
  rw [valuesFit, Bool.and_eq_true, decide_eq_true_eq]

@[simp] theorem valuesFit_nil (vs : List Nat) : valuesFit [] vs = true := by simp [valuesFit]

/-- Every instruction is well-formed: its fields have exactly their width (R94). -/
@[simp] theorem Instr.wellFormed_eq_true (i : Instr) : i.wellFormed = true := by
  cases i <;>
    simp [Instr.wellFormed, Instr.toTerm, Term.wellFormed, Mnemonic.arity, Mnemonic.operands, valuesFit,
      reg_fits, byte_fits, nibble_fits, addr_fits]

end Sys2Proof
end

