-- ==== Sys2Proof/Laws/Assembler.lean ====
section
/-! SUPPORT. What the assembler's operand grammars, passes and line functions can give (spec/49_assembler.md), said once each. -/

namespace Sys2Proof.Assembler

/-! ### Digits (R275 to R281) -/

theorem digitValue_lt {c : Char} {d : Nat} (h : digitValue c = some d) : d < 10 := by
  unfold digitValue at h
  split at h
  · next hc =>
    simp only [Char.isDigit, Bool.and_eq_true, decide_eq_true_eq, UInt32.le_iff_toNat_le] at hc
    cases h
    have : c.toNat = c.val.toNat := rfl
    have := hc.2
    simp at this
    omega
  · cases h

theorem hexDigit_lt {c : Char} {d : Nat} (h : hexDigit c = some d) : d < 16 := by
  unfold hexDigit at h
  have e : c.toNat = c.val.toNat := rfl
  split at h
  · next hc =>
    simp only [Char.isDigit, Bool.and_eq_true, decide_eq_true_eq, UInt32.le_iff_toNat_le] at hc
    cases h
    have := hc.2
    simp at this
    omega
  · split at h
    · next hc =>
      cases h
      have := hc.2
      simp only [Char.le_def, UInt32.le_iff_toNat_le] at this
      simp at this
      omega
    · split at h
      · next hc =>
        cases h
        have := hc.2
        simp only [Char.le_def, UInt32.le_iff_toNat_le] at this
        simp at this
        omega
      · cases h

/-- Digits below the base give a value below `base ^ length`, after the value before them. -/
theorem digits_lt {value : Char → Option Nat} {base : Nat} (hb : ∀ c d, value c = some d → d < base) (l : List Char) :
    ∀ {acc v : Nat}, digits value base acc l = some v → v < (acc + 1) * base ^ l.length := by
  induction l with
  | nil => intro acc v h; cases h; simp
  | cons c cs ih =>
    intro acc v h
    rw [digits] at h
    split at h
    · cases h
    · next d hd =>
      have h1 := ih h
      have h2 := hb c d hd
      calc v < (base * acc + d + 1) * base ^ cs.length := h1
        _ ≤ (base * (acc + 1)) * base ^ cs.length := Nat.mul_le_mul_right _ (by rw [Nat.mul_add]; omega)
        _ = (acc + 1) * base ^ (c :: cs).length := by rw [List.length_cons, Nat.pow_succ]; ring

theorem exactDigits_lt {value : Char → Option Nat} {base n v : Nat} {l : List Char}
    (hb : ∀ c d, value c = some d → d < base) (h : exactDigits value base n l = .ok v) : v < base ^ n := by
  unfold exactDigits at h
  split at h
  · next hl =>
    split at h
    · next w hw =>
      cases h
      have := digits_lt hb l hw
      rwa [hl, Nat.zero_add, Nat.one_mul] at this
    · cases h
  · cases h

theorem decimalBelow_lt {bound v : Nat} {l : List Char} (h : decimalBelow bound l = .ok v) : v < bound := by
  unfold decimalBelow at h
  split at h
  · cases h
  · split at h
    · cases h
    · split at h
      · next hlt => cases h; exact hlt
      · cases h

theorem parseRegister_lt {l : List Char} {v : Nat} (h : parseRegister l = .ok v) : v < 16 := by
  unfold parseRegister at h
  split at h
  · simpa using exactDigits_lt (fun _ _ => hexDigit_lt) h
  · simpa using exactDigits_lt (fun _ _ => hexDigit_lt) h
  · cases h

theorem parseLiteral_lt {n bound v : Nat} {l : List Char} (hb : 16 ^ n ≤ bound) (h : parseLiteral n bound l = .ok v) :
    v < bound := by
  unfold parseLiteral at h
  split at h
  · exact Nat.lt_of_lt_of_le (exactDigits_lt (fun _ _ => hexDigit_lt) h) hb
  · exact decimalBelow_lt h

theorem parseAddress_lt {labels : LabelTable} {l : List Char} {v : Nat} (h : parseAddress labels l = .ok v) : v < 4096 := by
  unfold parseAddress at h
  split at h
  · simpa using exactDigits_lt (fun _ _ => hexDigit_lt) h
  · split at h
    · split at h
      · cases h
      · split at h
        · cases h
        · cases h; omega
    · cases h

/-- A parsed operand fits the field of its kind (R104, R272). -/
theorem parseOperand_lt {labels : LabelTable} {k : OperandKind} {l : List Char} {v : Nat}
    (h : parseOperand labels k l = .ok v) : v < k.bound := by
  cases k with
  | reg => exact parseRegister_lt h
  | byte => exact parseLiteral_lt (by decide) h
  | nibble => exact parseLiteral_lt (by decide) h
  | addr => exact parseAddress_lt h

/-- Parsed operands are as many as the kinds, and fit. -/
theorem parseOperands_fit {labels : LabelTable} (ks : List OperandKind) : ∀ {ls : List (List Char)} {vs : List Nat},
    parseOperands labels ks ls = .ok vs → ls.length = ks.length → vs.length = ks.length ∧ valuesFit ks vs = true := by
  induction ks with
  | nil => intro ls vs h _; cases ls <;> (cases h; exact ⟨rfl, rfl⟩)
  | cons k ks ih =>
    intro ls vs h hl
    cases ls with
    | nil => simp at hl
    | cons l ls =>
      rw [parseOperands] at h
      split at h
      · cases h
      · next v hv =>
        split at h
        · cases h
        · next ws hws =>
          cases h
          obtain ⟨h1, h2⟩ := ih hws (by simpa using hl)
          exact ⟨by simp [h1], by rw [valuesFit_cons]; exact ⟨parseOperand_lt hv, h2⟩⟩

/-! ### Lines (R267, R268, R270, R292) -/

/-- What an instruction line that assembles went through (R271, R272, R292). -/
theorem emitInstruction_ok {labels : LabelTable} {m : Mnemonic} {rest : List Char} {bs : List Byte}
    (h : emitInstruction labels m rest = .ok bs) :
    ∃ ops vs i, operandList rest = .ok ops ∧ ops.length = m.arity ∧ parseOperands labels m.operands ops = .ok vs ∧
      (Term.mk m vs).wellFormed = true ∧ (Term.mk m vs).toInstr = some i ∧ bs = encodeBytes i := by
  unfold emitInstruction at h
  split at h
  · cases h
  · next ops hops =>
    split at h
    · cases h
    · next hlen =>
      split at h
      · cases h
      · next vs hvs =>
        have hlen : ops.length = m.arity := by simpa using hlen
        obtain ⟨h1, h2⟩ := parseOperands_fit m.operands hvs hlen
        split at h
        · next i hi =>
          cases h
          exact ⟨ops, vs, i, hops, hlen, hvs, by simp [Term.wellFormed, Mnemonic.arity, h1, h2], hi, rfl⟩
        · cases h

/-- A line that assembles emits as many bytes as pass 1 counted for it (R267, R268). -/
theorem emitLine_length {labels : LabelTable} {c : LineClass} {bs : List Byte} (h : emitLine labels c = .ok bs) :
    bs.length = width c := by
  cases c with
  | instruction m rest =>
    obtain ⟨_, _, i, _, _, _, _, _, rfl⟩ := emitInstruction_ok (show emitInstruction labels m rest = .ok bs from h)
    rfl
  | dataWord rest =>
    simp only [emitLine] at h
    unfold emitWord at h
    split at h
    · cases h
    · split at h <;> cases h
      rfl
    · cases h
  | dataByte rest =>
    simp only [emitLine] at h
    unfold emitByte at h
    split at h
    · cases h
    · split at h <;> cases h
      rfl
    · cases h
  | unknown => cases h
  | empty => cases h; rfl
  | directive => cases h; rfl
  | label name => cases h; rfl

/-- Pass 1 on one line moves the pointer by the line's width (R267). -/
theorem resolveLine_pointer {c : LineClass} {ptr p : Nat} {labels t : LabelTable}
    (h : resolveLine c ptr labels = .ok (p, t)) : p = ptr + width c := by
  cases c <;> simp only [resolveLine] at h
  case label name => split at h <;> cases h; rfl
  case unknown => cases h
  all_goals (split at h <;> cases h; rfl)

/-- Pass 1 on one line keeps every label, and a label line adds its own at the pointer (R267). -/
theorem resolveLine_labels {c : LineClass} {ptr p : Nat} {labels t : LabelTable}
    (h : resolveLine c ptr labels = .ok (p, t)) :
    (∀ name a, findLabel labels name = some a → findLabel t name = some a) ∧
    (∀ name, c = .label name → findLabel t name = some ptr) := by
  have happ : ∀ (l m : LabelTable) name a, findLabel l name = some a → findLabel (l ++ m) name = some a := by
    intro l m name a
    induction l with
    | nil => intro h; cases h
    | cons e l ih =>
      obtain ⟨n, b⟩ := e
      intro h
      simp only [List.cons_append, findLabel] at h ⊢
      split <;> rename_i hn
      · rwa [if_pos hn] at h
      · rw [if_neg hn] at h; exact ih h
  have hnew : ∀ (l : LabelTable) name a, findLabel l name = none → findLabel (l ++ [(name, a)]) name = some a := by
    intro l name a
    induction l with
    | nil => intro _; simp [findLabel]
    | cons e l ih =>
      obtain ⟨n, b⟩ := e
      intro h
      simp only [List.cons_append, findLabel] at h ⊢
      split <;> rename_i hn
      · rw [if_pos hn] at h; cases h
      · rw [if_neg hn] at h; exact ih h
  cases c <;> simp only [resolveLine] at h
  case label name =>
    split at h
    · cases h
    · next hnone =>
      cases h
      exact ⟨fun n a => happ _ _ n a, fun n e => by cases e; exact hnew _ _ _ hnone⟩
  case unknown => cases h
  all_goals
    split at h
    · cases h
    · cases h; exact ⟨fun _ _ h => h, fun _ e => by cases e⟩

/-- Pass 1 moves the pointer by the widths of the lines (R267). -/
theorem resolve_pointer (lines : List Line) : ∀ {ptr p : Nat} {labels t : LabelTable},
    resolve lines ptr labels = .ok (p, t) → p = ptr + (lines.map fun l => width l.cls).sum := by
  induction lines with
  | nil => intro ptr p labels t h; cases h; simp
  | cons l rest ih =>
    intro ptr p labels t h
    rw [resolve] at h
    split at h
    · cases h
    · next q u hq =>
      rw [ih h, resolveLine_pointer hq, List.map_cons, List.sum_cons]
      omega

/-- Pass 1 keeps every label it has (R267). -/
theorem resolve_keeps (lines : List Line) : ∀ {ptr p : Nat} {labels t : LabelTable} {name : List Char} {a : Nat},
    resolve lines ptr labels = .ok (p, t) → findLabel labels name = some a → findLabel t name = some a := by
  induction lines with
  | nil => intro ptr p labels t name a h hl; cases h; exact hl
  | cons l rest ih =>
    intro ptr p labels t name a h hl
    rw [resolve] at h
    split at h
    · cases h
    · next q u hq => exact ih h ((resolveLine_labels hq).1 _ _ hl)

/-- Pass 2 emits the widths of the lines (R270). -/
theorem emit_length {labels : LabelTable} (lines : List Line) : ∀ {bs : List Byte}, emit labels lines = .ok bs →
    bs.length = (lines.map fun l => width l.cls).sum := by
  induction lines with
  | nil => intro bs h; cases h; rfl
  | cons l rest ih =>
    intro bs h
    rw [emit] at h
    split at h
    · cases h
    · next b hb =>
      split at h
      · cases h
      · next more hm =>
        cases h
        rw [List.length_append, emitLine_length hb, ih hm, List.map_cons, List.sum_cons]

/-! ### Errors name their line (R283) -/

/-- What a line's error says: the line's number and text, and the kind it failed with. -/
theorem stop_error {l : Line} {e : Issue} {k : ErrorKind} {n : Nat} {t : List Char} (h : l.stop e = .error k n t) :
    l = ⟨n, t⟩ ∧ e = .err k := by
  cases e <;> cases h
  exact ⟨rfl, rfl⟩

/-- Pass 1 fails at the first line it fails on, and names it (R261, R283). -/
theorem resolve_error (lines : List Line) : ∀ {p : Nat} {labels : LabelTable} {k : ErrorKind} {n : Nat} {t : List Char},
    resolve lines p labels = .error (.error k n t) →
    ∃ before after q u, lines = before ++ ⟨n, t⟩ :: after ∧ resolve before p labels = .ok (q, u) ∧
      resolveLine (Line.mk n t).cls q u = .error (.err k) := by
  induction lines with
  | nil => intro p labels k n t h; cases h
  | cons l rest ih =>
    intro p labels k n t h
    rw [resolve] at h
    split at h
    · next e he =>
      injection h with h
      obtain ⟨rfl, rfl⟩ := stop_error h
      exact ⟨[], rest, p, labels, rfl, rfl, he⟩
    · next q u hq =>
      obtain ⟨before, after, q', u', rfl, h1, h2⟩ := ih h
      exact ⟨l :: before, after, q', u', rfl, by rw [resolve, hq]; exact h1, h2⟩

/-- Pass 2 fails at the first line it fails on, and names it (R261, R283). -/
theorem emit_error {labels : LabelTable} (lines : List Line) : ∀ {k : ErrorKind} {n : Nat} {t : List Char},
    emit labels lines = .error (.error k n t) →
    ∃ before after bs, lines = before ++ ⟨n, t⟩ :: after ∧ emit labels before = .ok bs ∧
      emitLine labels (Line.mk n t).cls = .error (.err k) := by
  induction lines with
  | nil => intro k n t h; cases h
  | cons l rest ih =>
    intro k n t h
    rw [emit] at h
    split at h
    · next e he =>
      injection h with h
      obtain ⟨rfl, rfl⟩ := stop_error h
      exact ⟨[], rest, [], rfl, rfl, he⟩
    · next b hb =>
      split at h
      · next e he =>
        injection h with h
        subst h
        obtain ⟨before, after, bs, rfl, h1, h2⟩ := ih he
        exact ⟨l :: before, after, b ++ bs, rfl, by rw [emit, hb, h1], h2⟩
      · cases h

/-- Lines numbered from `n`: the line after `before` has the number `n` plus their count (R262). -/
theorem numberFrom_number (ts : List (List Char)) : ∀ {n : Nat} {before after : List Line} {l : Line},
    numberFrom n ts = before ++ l :: after → l.number = n + before.length := by
  induction ts with
  | nil => intro n before after l h; simp [numberFrom] at h
  | cons t ts ih =>
    intro n before after l h
    rw [numberFrom] at h
    cases before with
    | nil => simp only [List.nil_append, List.cons.injEq] at h; simp [← h.1]
    | cons b before =>
      simp only [List.cons_append, List.cons.injEq] at h
      rw [ih h.2, List.length_cons]
      omega

end Sys2Proof.Assembler
end

