-- ==== Sys2Proof/Laws/Display.lean ====
section
/-! SUPPORT. What the XOR blit of spec/45_display.md R191 does to each pixel, and when it hits. -/

namespace Sys2Proof.Machine

@[simp] theorem FrameBuffer.pixel_clear (x y : Nat) : FrameBuffer.clear.pixel x y = false := by
  simp [FrameBuffer.pixel, FrameBuffer.clear]

theorem inFrame_iff (x y : Nat) : inFrame x y = true ↔ x < 64 ∧ y < 32 := by
  unfold inFrame
  rw [Bool.and_eq_true, decide_eq_true_eq, decide_eq_true_eq]
  rfl

/-- Two pixels of the frame buffer with one flat index are the same pixel (R28). -/
theorem pixelIndex_inj {x y a b : Nat} (h : inFrame x y = true) (h' : inFrame a b = true)
    (e : pixelIndex x y = pixelIndex a b) : x = a ∧ y = b := by
  rw [inFrame_iff] at h h'
  simp only [pixelIndex, Config.fbWidth] at e
  omega

theorem pixelIndex_lt {x y : Nat} (h : inFrame x y = true) : pixelIndex x y < 2048 := by
  rw [inFrame_iff] at h
  simp only [pixelIndex, Config.fbWidth]
  omega

/-- A flip changes exactly its pixel. -/
theorem FrameBuffer.pixel_flip (fb : FrameBuffer) {a b : Nat} (h : inFrame a b = true) (x y : Nat) :
    (fb.flip a b).pixel x y = (fb.pixel x y ^^ decide (x = a ∧ y = b)) := by
  unfold pixel
  by_cases hxy : inFrame x y = true
  · have hlt := pixelIndex_lt hxy
    rw [hxy, FrameBuffer.flip, BitVec.getLsbD_xor, BitVec.getLsbD_twoPow]
    by_cases e : x = a ∧ y = b
    · obtain ⟨rfl, rfl⟩ := e
      simp [hlt]
    · have : pixelIndex a b ≠ pixelIndex x y := fun he => e (pixelIndex_inj hxy h he.symm)
      simp [e, this]
  · have : ¬ (x = a ∧ y = b) := by rintro ⟨rfl, rfl⟩; exact hxy h
    simp [hxy, this]

/-- Frame buffers with equal pixels are equal. -/
theorem FrameBuffer.ext_pixel {f g : FrameBuffer}
    (h : ∀ x y, inFrame x y = true → f.pixel x y = g.pixel x y) : f = g := by
  refine BitVec.eq_of_getLsbD_eq fun i hi => ?_
  have hin : inFrame (i % 64) (i / 64) = true := by rw [inFrame_iff]; omega
  have := h _ _ hin
  simpa [FrameBuffer.pixel, hin, pixelIndex, Config.fbWidth, show 64 * (i / 64) + i % 64 = i by omega] using this

/-- The sprite bit over a target, of a sprite at (x0, y0) whose rows are `sprite` (R191, R192). -/
def spriteCovers (sprite : List Byte) (x0 y0 x y : Nat) : Bool :=
  decide (y0 ≤ y) && decide (x0 ≤ x) && spriteBit (sprite.getD (y - y0) 0#8) (x - x0)

theorem blitColumns_pixel (b : Byte) (x0 py : Nat) (cols : List Nat) : ∀ (acc : FrameBuffer × Bool), cols.Nodup →
    ∀ x y, inFrame x y = true →
    (cols.foldl (fun a col => if spriteBit b col then blitBit a (x0 + col) py else a) acc).1.pixel x y =
      (acc.1.pixel x y ^^ (decide (y = py) && decide (x0 ≤ x) && decide (x - x0 ∈ cols) && spriteBit b (x - x0))) := by
  induction cols with
  | nil => intros; simp
  | cons c cols ih =>
    intro acc hnd x y hxy
    rw [List.nodup_cons] at hnd
    rw [List.foldl_cons, ih _ hnd.2 x y hxy]
    by_cases hb : spriteBit b c = true
    · rw [if_pos hb, blitBit]
      by_cases hin : inFrame (x0 + c) py = true
      · rw [if_pos hin]
        simp only [FrameBuffer.pixel_flip _ hin]
        by_cases hy : y = py
        · by_cases hx : x = x0 + c
          · subst hx; subst hy
            simp [hnd.1, hb]
          · have : x0 ≤ x → x - x0 ≠ c := fun _ _ => hx (by omega)
            by_cases hle : x0 ≤ x
            · simp [hy, hx, hle, this hle]
            · simp [hx, hle]
        · simp [hy]
      · rw [if_neg hin]
        by_cases hx : x0 ≤ x ∧ x - x0 = c ∧ y = py
        · obtain ⟨h1, h2, h3⟩ := hx
          rw [show x0 + c = x by omega, ← h3] at hin
          exact absurd hxy hin
        · by_cases hle : x0 ≤ x
          · by_cases hy : y = py
            · have : x - x0 ≠ c := fun e => hx ⟨hle, e, hy⟩
              simp [this]
            · simp [hy]
          · simp [hle]
    · rw [if_neg hb]
      by_cases hc : x - x0 = c
      · simp [hc, hnd.1, hb]
      · simp [hc]

theorem blitColumns_hit (b : Byte) (x0 py : Nat) (cols : List Nat) : ∀ (acc : FrameBuffer × Bool), cols.Nodup →
    ((cols.foldl (fun a col => if spriteBit b col then blitBit a (x0 + col) py else a) acc).2 = true ↔
      acc.2 = true ∨ ∃ c ∈ cols, spriteBit b c = true ∧ inFrame (x0 + c) py = true ∧ acc.1.pixel (x0 + c) py = true) := by
  induction cols with
  | nil => intros; simp
  | cons c cols ih =>
    intro acc hnd
    rw [List.nodup_cons] at hnd
    rw [List.foldl_cons, ih _ hnd.2]
    by_cases hb : spriteBit b c = true
    · rw [if_pos hb, blitBit]
      by_cases hin : inFrame (x0 + c) py = true
      · rw [if_pos hin]
        simp only [FrameBuffer.pixel_flip _ hin, Bool.or_eq_true, List.mem_cons, exists_eq_or_imp, hb, hin, true_and]
        have hne : ∀ d ∈ cols, d ≠ c := fun d hd e => hnd.1 (e ▸ hd)
        constructor
        · rintro ((h | h) | ⟨d, hd, h1, h2, h3⟩)
          · exact .inl h
          · exact .inr (.inl h)
          · exact .inr (.inr ⟨d, hd, h1, h2, by simpa [hne d hd] using h3⟩)
        · rintro (h | h | ⟨d, hd, h1, h2, h3⟩)
          · exact .inl (.inl h)
          · exact .inl (.inr h)
          · exact .inr ⟨d, hd, h1, h2, by simpa [hne d hd] using h3⟩
      · rw [if_neg hin]; simp [hin]
    · rw [if_neg hb]; simp [hb]

theorem spriteBit_le {b : Byte} {c : Nat} (h : spriteBit b c = true) : c ≤ 7 := by
  simp [spriteBit] at h; exact h.1

theorem mem_spriteColumns {c : Nat} : c ∈ spriteColumns ↔ c ≤ 7 := by
  simp [spriteColumns]; omega

/-- One row: each pixel of the row is XORed with the sprite bit over it. -/
theorem blitRow_pixel (b : Byte) (x0 py : Nat) (acc : FrameBuffer × Bool) {x y : Nat} (h : inFrame x y = true) :
    (blitRow b x0 py acc).1.pixel x y =
      (acc.1.pixel x y ^^ (decide (y = py) && decide (x0 ≤ x) && spriteBit b (x - x0))) := by
  rw [blitRow, blitColumns_pixel _ _ _ _ _ (by decide) _ _ h]
  congr 1
  by_cases hs : spriteBit b (x - x0) = true
  · simp [hs, mem_spriteColumns.mpr (spriteBit_le hs)]
  · simp [hs]

/-- One row: a hit is a set sprite bit over an in-bounds pixel that was 1. -/
theorem blitRow_hit (b : Byte) (x0 py : Nat) (acc : FrameBuffer × Bool) :
    (blitRow b x0 py acc).2 = true ↔
      acc.2 = true ∨ ∃ x, inFrame x py = true ∧ x0 ≤ x ∧ spriteBit b (x - x0) = true ∧ acc.1.pixel x py = true := by
  rw [blitRow, blitColumns_hit _ _ _ _ _ (by decide)]
  refine or_congr_right ⟨?_, ?_⟩
  · rintro ⟨c, _, h1, h2, h3⟩
    exact ⟨x0 + c, h2, by omega, by simpa using h1, h3⟩
  · rintro ⟨x, h1, h2, h3, h4⟩
    refine ⟨x - x0, mem_spriteColumns.mpr (spriteBit_le h3), h3, ?_, ?_⟩ <;>
      rwa [show x0 + (x - x0) = x by omega]

theorem spriteBit_zero (c : Nat) : spriteBit 0#8 c = false := by simp [spriteBit]

theorem spriteCovers_cons (b : Byte) (rest : List Byte) (x0 y0 x y : Nat) :
    spriteCovers (b :: rest) x0 y0 x y =
      ((decide (y = y0) && decide (x0 ≤ x) && spriteBit b (x - x0)) ^^ spriteCovers rest x0 (y0 + 1) x y) := by
  unfold spriteCovers
  rcases Nat.lt_trichotomy y y0 with h | h | h
  · simp [show ¬ y0 ≤ y by omega, show ¬ y0 + 1 ≤ y by omega, show y ≠ y0 by omega]
  · subst h; simp
  · have : y - y0 = (y - (y0 + 1)) + 1 := by omega
    rw [this, List.getD_cons_succ]
    simp [show y0 ≤ y by omega, show y0 + 1 ≤ y by omega, show y ≠ y0 by omega]

/-- The whole sprite: each in-bounds pixel is XORed with the sprite bit over it (R191, R193). -/
theorem blitRows_pixel (sprite : List Byte) : ∀ (x0 y0 : Nat) (acc : FrameBuffer × Bool) {x y : Nat},
    inFrame x y = true →
    (blitRows sprite x0 y0 acc).1.pixel x y = (acc.1.pixel x y ^^ spriteCovers sprite x0 y0 x y) := by
  induction sprite with
  | nil => intro x0 y0 acc x y _; simp [blitRows, spriteCovers, spriteBit_zero]
  | cons b rest ih =>
    intro x0 y0 acc x y h
    rw [blitRows, ih _ _ _ h, blitRow_pixel _ _ _ _ h, spriteCovers_cons, Bool.xor_assoc]

/-- The whole sprite: the collision flag is set iff a set sprite bit lies over an in-bounds pixel that was 1 (R194). -/
theorem blitRows_hit (sprite : List Byte) : ∀ (x0 y0 : Nat) (acc : FrameBuffer × Bool),
    ((blitRows sprite x0 y0 acc).2 = true ↔
      acc.2 = true ∨ ∃ x y, inFrame x y = true ∧ spriteCovers sprite x0 y0 x y = true ∧ acc.1.pixel x y = true) := by
  induction sprite with
  | nil => intro x0 y0 acc; simp [blitRows, spriteCovers, spriteBit_zero]
  | cons b rest ih =>
    intro x0 y0 acc
    rw [blitRows, ih, blitRow_hit, or_assoc]
    refine or_congr_right ⟨?_, ?_⟩
    · rintro (⟨x, h1, h2, h3, h4⟩ | ⟨x, y, h1, h2, h3⟩)
      · exact ⟨x, y0, h1, by simp [spriteCovers, h2, h3], h4⟩
      · have hy : y0 + 1 ≤ y := by
          simp only [spriteCovers, Bool.and_eq_true, decide_eq_true_eq] at h2; exact h2.1.1
        rw [blitRow_pixel _ _ _ _ h1] at h3
        refine ⟨x, y, h1, ?_, by simpa [show y ≠ y0 by omega] using h3⟩
        rw [spriteCovers_cons, h2]; simp [show y ≠ y0 by omega]
    · rintro ⟨x, y, h1, h2, h3⟩
      by_cases hy : y = y0
      · subst hy
        simp only [spriteCovers, Nat.sub_self, List.getD_cons_zero, Bool.and_eq_true, decide_eq_true_eq] at h2
        exact .inl ⟨x, h1, h2.1.2, h2.2, h3⟩
      · refine .inr ⟨x, y, h1, ?_, ?_⟩
        · rw [spriteCovers_cons] at h2; simpa [hy] using h2
        · rw [blitRow_pixel _ _ _ _ h1]; simpa [hy] using h3

end Sys2Proof.Machine
end

