-- ==== Sys2Proof/Laws/Memory.lean ====
section
/-! SUPPORT. The laws of memory: read after write, the canonical form is kept, and equal reads mean equal memories. -/

namespace Sys2Proof.Machine
namespace Memory

theorem readByte_writeByte_other (m : Memory) {a c : Nat} (h : c ≠ a) (v : Byte) :
    (m.writeByte a v).readByte c = m.readByte c := by
  induction m with
  | nil => unfold writeByte; split <;> simp [readByte, h]
  | cons p rest ih =>
    obtain ⟨b, w⟩ := p
    unfold writeByte
    by_cases h1 : a < b
    · rw [if_pos h1]; split <;> simp [readByte, h]
    · rw [if_neg h1]
      by_cases h2 : a = b
      · subst h2; rw [if_pos rfl]; split <;> simp [readByte, h]
      · rw [if_neg h2]; simp only [readByte, ih]

/-- Below the first listed address every byte reads as the unlisted byte. -/
theorem readByte_below {m : Memory} : ∀ {lo a : Nat}, wfFrom lo m = true → a < lo → m.readByte a = unlistedByte := by
  induction m with
  | nil => intros; rfl
  | cons p rest ih =>
    obtain ⟨b, w⟩ := p
    intro lo a h hlt
    simp only [wfFrom, Bool.and_eq_true, decide_eq_true_eq] at h
    rw [readByte, if_neg (by omega)]
    exact ih h.2 (by omega)

theorem wfFrom_mono {m : Memory} {lo lo' : Nat} (hle : lo' ≤ lo) (h : wfFrom lo m = true) : wfFrom lo' m = true := by
  cases m with
  | nil => rfl
  | cons p rest =>
    obtain ⟨b, w⟩ := p
    simp only [wfFrom, Bool.and_eq_true, decide_eq_true_eq] at h ⊢
    exact ⟨⟨⟨by omega, h.1.1.2⟩, h.1.2⟩, h.2⟩

theorem readByte_writeByte_same_from {m : Memory} : ∀ {lo a : Nat} (v : Byte), wfFrom lo m = true →
    (m.writeByte a v).readByte a = v := by
  induction m with
  | nil => intro lo a v _; unfold writeByte; split <;> simp_all [readByte]
  | cons p rest ih =>
    obtain ⟨b, w⟩ := p
    intro lo a v h
    have h' := h
    simp only [wfFrom, Bool.and_eq_true, decide_eq_true_eq] at h
    unfold writeByte
    by_cases h1 : a < b
    · rw [if_pos h1]
      split
      · next hv =>
        rw [readByte, if_neg (by omega), readByte_below h.2 (by omega), hv]
      · simp [readByte]
    · rw [if_neg h1]
      by_cases h2 : a = b
      · subst h2
        rw [if_pos rfl]
        split
        · next hv => rw [readByte_below h.2 (by omega), hv]
        · simp [readByte]
      · rw [if_neg h2, readByte, if_neg h2]
        exact ih v h.2

/-- A read after a write to the same place gives the value written. -/
theorem readByte_writeByte_same {m : Memory} (h : m.wf = true) (a : Nat) (v : Byte) :
    (m.writeByte a v).readByte a = v := readByte_writeByte_same_from v h

theorem wfFrom_writeByte {m : Memory} : ∀ {lo a : Nat} (v : Byte), wfFrom lo m = true → lo ≤ a → a < Config.memSize →
    wfFrom lo (m.writeByte a v) = true := by
  induction m with
  | nil => intro lo a v _ hlo ha; unfold writeByte; split <;> simp_all [wfFrom]
  | cons p rest ih =>
    obtain ⟨b, w⟩ := p
    intro lo a v h hlo ha
    have h' := h
    simp only [wfFrom, Bool.and_eq_true, decide_eq_true_eq] at h
    unfold writeByte
    by_cases h1 : a < b
    · rw [if_pos h1]
      split
      · exact h'
      · next hv =>
        simp only [wfFrom, Bool.and_eq_true, decide_eq_true_eq]
        exact ⟨⟨⟨hlo, ha⟩, hv⟩, ⟨⟨by omega, h.1.1.2⟩, h.1.2⟩, h.2⟩
    · rw [if_neg h1]
      by_cases h2 : a = b
      · subst h2
        rw [if_pos rfl]
        split
        · exact wfFrom_mono (by omega) h.2
        · next hv =>
          simp only [wfFrom, Bool.and_eq_true, decide_eq_true_eq]
          exact ⟨⟨⟨hlo, ha⟩, hv⟩, h.2⟩
      · rw [if_neg h2]
        simp only [wfFrom, Bool.and_eq_true, decide_eq_true_eq]
        exact ⟨h.1, ih v h.2 (by omega) ha⟩

/-- A write inside memory keeps the canonical form. -/
theorem wf_writeByte {m : Memory} (h : m.wf = true) {a : Nat} (ha : a < Config.memSize) (v : Byte) :
    (m.writeByte a v).wf = true := wfFrom_writeByte v h (Nat.zero_le a) ha

/-- Storing bytes inside memory keeps the canonical form. -/
theorem wf_storeBytes (bs : List Byte) : ∀ {m : Memory} {a : Nat}, m.wf = true → a + bs.length ≤ Config.memSize →
    (m.storeBytes a bs).wf = true := by
  induction bs with
  | nil => intro m a h _; exact h
  | cons b bs ih =>
    intro m a h hle
    simp only [List.length_cons] at hle
    exact ih (wf_writeByte h (by omega) b) (by omega)

/-- Storing bytes leaves every byte outside them alone. -/
theorem readByte_storeBytes_outside (bs : List Byte) : ∀ (m : Memory) {a c : Nat}, c < a ∨ a + bs.length ≤ c →
    (m.storeBytes a bs).readByte c = m.readByte c := by
  induction bs with
  | nil => intros; rfl
  | cons b bs ih =>
    intro m a c h
    simp only [List.length_cons] at h
    rw [storeBytes, ih _ (by omega), readByte_writeByte_other _ (by omega)]

/-- Storing bytes puts byte `k` at `a + k`. -/
theorem readByte_storeBytes_inside (bs : List Byte) : ∀ {m : Memory} {a k : Nat}, m.wf = true →
    a + bs.length ≤ Config.memSize → k < bs.length → (m.storeBytes a bs).readByte (a + k) = bs.getD k 0#8 := by
  induction bs with
  | nil => intro m a k _ _ h; simp at h
  | cons b bs ih =>
    intro m a k hw hle hk
    simp only [List.length_cons] at hle hk
    rw [storeBytes]
    cases k with
    | zero =>
      rw [readByte_storeBytes_outside _ _ (by omega)]
      simpa using readByte_writeByte_same hw a b
    | succ k =>
      have := ih (m := m.writeByte a b) (a := a + 1) (k := k) (wf_writeByte hw (by omega) b) (by omega) (by omega)
      rw [show a + (k + 1) = a + 1 + k by omega, this, List.getD_cons_succ]

theorem wfFrom_ext {m n : Memory} : ∀ {lo : Nat}, wfFrom lo m = true → wfFrom lo n = true →
    (∀ a, m.readByte a = n.readByte a) → m = n := by
  induction m generalizing n with
  | nil =>
    intro lo _ hn h
    cases n with
    | nil => rfl
    | cons p rest =>
      obtain ⟨b, w⟩ := p
      simp only [wfFrom, Bool.and_eq_true, decide_eq_true_eq] at hn
      exact absurd (by simpa [readByte] using (h b).symm) hn.1.2
  | cons p rest ih =>
    obtain ⟨b, w⟩ := p
    intro lo hm hn h
    have hm' := hm
    simp only [wfFrom, Bool.and_eq_true, decide_eq_true_eq] at hm
    cases n with
    | nil => exact absurd (by simpa [readByte] using h b) hm.1.2
    | cons q rest' =>
      obtain ⟨c, u⟩ := q
      have hn' := hn
      simp only [wfFrom, Bool.and_eq_true, decide_eq_true_eq] at hn
      have hbc : b = c := by
        rcases Nat.lt_trichotomy b c with hlt | heq | hgt
        · have := h b
          rw [readByte, if_pos rfl, readByte, if_neg (by omega), readByte_below hn.2 (by omega)] at this
          exact absurd this hm.1.2
        · exact heq
        · have := h c
          rw [readByte, if_neg (by omega), readByte_below hm.2 (by omega), readByte, if_pos rfl] at this
          exact absurd this.symm hn.1.2
      subst hbc
      have hwu : w = u := by simpa [readByte] using h b
      subst hwu
      congr 1
      refine ih hm.2 hn.2 fun a => ?_
      by_cases hab : a = b
      · subst hab
        rw [readByte_below hm.2 (by omega), readByte_below hn.2 (by omega)]
      · simpa [readByte, hab] using h a

/-- Equal memories are equal data: two memories in canonical form that read the same are the same list. -/
theorem ext_of_wf {m n : Memory} (hm : m.wf = true) (hn : n.wf = true) (h : ∀ a, m.readByte a = n.readByte a) : m = n :=
  wfFrom_ext hm hn h

end Memory
end Sys2Proof.Machine
end

