-- ==== Sys2Proof/Laws/State.lean ====
section
/-! SUPPORT. One lemma per field per named update of State, and the register laws, so that no later proof unfolds a record update. -/

namespace Sys2Proof.Machine
namespace State

variable (s : State)

/-! ### setV -/

@[simp] theorem setV_v (x : RegIdx) (b : Byte) : (s.setV x b).v = s.v.set x.toNat b := rfl
@[simp] theorem setV_i (x : RegIdx) (b : Byte) : (s.setV x b).i = s.i := rfl
@[simp] theorem setV_pc (x : RegIdx) (b : Byte) : (s.setV x b).pc = s.pc := rfl
@[simp] theorem setV_sp (x : RegIdx) (b : Byte) : (s.setV x b).sp = s.sp := rfl
@[simp] theorem setV_dt (x : RegIdx) (b : Byte) : (s.setV x b).dt = s.dt := rfl
@[simp] theorem setV_dtAcc (x : RegIdx) (b : Byte) : (s.setV x b).dtAcc = s.dtAcc := rfl
@[simp] theorem setV_mem (x : RegIdx) (b : Byte) : (s.setV x b).mem = s.mem := rfl
@[simp] theorem setV_fb (x : RegIdx) (b : Byte) : (s.setV x b).fb = s.fb := rfl
@[simp] theorem setV_finished (x : RegIdx) (b : Byte) : (s.setV x b).finished = s.finished := rfl
@[simp] theorem setV_frameBufferUpdated (x : RegIdx) (b : Byte) : (s.setV x b).frameBufferUpdated = s.frameBufferUpdated := rfl
@[simp] theorem setV_playSound (x : RegIdx) (b : Byte) : (s.setV x b).playSound = s.playSound := rfl
@[simp] theorem setV_rngSeed (x : RegIdx) (b : Byte) : (s.setV x b).rngSeed = s.rngSeed := rfl
@[simp] theorem setV_rngCount (x : RegIdx) (b : Byte) : (s.setV x b).rngCount = s.rngCount := rfl
@[simp] theorem setV_fault (x : RegIdx) (b : Byte) : (s.setV x b).fault = s.fault := rfl
@[simp] theorem setV_elapsedQueue (x : RegIdx) (b : Byte) : (s.setV x b).elapsedQueue = s.elapsedQueue := rfl
@[simp] theorem setV_freeCount (x : RegIdx) (b : Byte) : (s.setV x b).freeCount = s.freeCount := rfl

/-! ### setI -/

@[simp] theorem setI_v (w : Word) : (s.setI w).v = s.v := rfl
@[simp] theorem setI_i (w : Word) : (s.setI w).i = w := rfl
@[simp] theorem setI_pc (w : Word) : (s.setI w).pc = s.pc := rfl
@[simp] theorem setI_sp (w : Word) : (s.setI w).sp = s.sp := rfl
@[simp] theorem setI_dt (w : Word) : (s.setI w).dt = s.dt := rfl
@[simp] theorem setI_dtAcc (w : Word) : (s.setI w).dtAcc = s.dtAcc := rfl
@[simp] theorem setI_mem (w : Word) : (s.setI w).mem = s.mem := rfl
@[simp] theorem setI_fb (w : Word) : (s.setI w).fb = s.fb := rfl
@[simp] theorem setI_finished (w : Word) : (s.setI w).finished = s.finished := rfl
@[simp] theorem setI_frameBufferUpdated (w : Word) : (s.setI w).frameBufferUpdated = s.frameBufferUpdated := rfl
@[simp] theorem setI_playSound (w : Word) : (s.setI w).playSound = s.playSound := rfl
@[simp] theorem setI_rngSeed (w : Word) : (s.setI w).rngSeed = s.rngSeed := rfl
@[simp] theorem setI_rngCount (w : Word) : (s.setI w).rngCount = s.rngCount := rfl
@[simp] theorem setI_fault (w : Word) : (s.setI w).fault = s.fault := rfl
@[simp] theorem setI_elapsedQueue (w : Word) : (s.setI w).elapsedQueue = s.elapsedQueue := rfl
@[simp] theorem setI_freeCount (w : Word) : (s.setI w).freeCount = s.freeCount := rfl

/-! ### setPc -/

@[simp] theorem setPc_v (w : Word) : (s.setPc w).v = s.v := rfl
@[simp] theorem setPc_i (w : Word) : (s.setPc w).i = s.i := rfl
@[simp] theorem setPc_pc (w : Word) : (s.setPc w).pc = w := rfl
@[simp] theorem setPc_sp (w : Word) : (s.setPc w).sp = s.sp := rfl
@[simp] theorem setPc_dt (w : Word) : (s.setPc w).dt = s.dt := rfl
@[simp] theorem setPc_dtAcc (w : Word) : (s.setPc w).dtAcc = s.dtAcc := rfl
@[simp] theorem setPc_mem (w : Word) : (s.setPc w).mem = s.mem := rfl
@[simp] theorem setPc_fb (w : Word) : (s.setPc w).fb = s.fb := rfl
@[simp] theorem setPc_finished (w : Word) : (s.setPc w).finished = s.finished := rfl
@[simp] theorem setPc_frameBufferUpdated (w : Word) : (s.setPc w).frameBufferUpdated = s.frameBufferUpdated := rfl
@[simp] theorem setPc_playSound (w : Word) : (s.setPc w).playSound = s.playSound := rfl
@[simp] theorem setPc_rngSeed (w : Word) : (s.setPc w).rngSeed = s.rngSeed := rfl
@[simp] theorem setPc_rngCount (w : Word) : (s.setPc w).rngCount = s.rngCount := rfl
@[simp] theorem setPc_fault (w : Word) : (s.setPc w).fault = s.fault := rfl
@[simp] theorem setPc_elapsedQueue (w : Word) : (s.setPc w).elapsedQueue = s.elapsedQueue := rfl
@[simp] theorem setPc_freeCount (w : Word) : (s.setPc w).freeCount = s.freeCount := rfl

/-! ### setSp -/

@[simp] theorem setSp_v (w : Word) : (s.setSp w).v = s.v := rfl
@[simp] theorem setSp_i (w : Word) : (s.setSp w).i = s.i := rfl
@[simp] theorem setSp_pc (w : Word) : (s.setSp w).pc = s.pc := rfl
@[simp] theorem setSp_sp (w : Word) : (s.setSp w).sp = w := rfl
@[simp] theorem setSp_dt (w : Word) : (s.setSp w).dt = s.dt := rfl
@[simp] theorem setSp_dtAcc (w : Word) : (s.setSp w).dtAcc = s.dtAcc := rfl
@[simp] theorem setSp_mem (w : Word) : (s.setSp w).mem = s.mem := rfl
@[simp] theorem setSp_fb (w : Word) : (s.setSp w).fb = s.fb := rfl
@[simp] theorem setSp_finished (w : Word) : (s.setSp w).finished = s.finished := rfl
@[simp] theorem setSp_frameBufferUpdated (w : Word) : (s.setSp w).frameBufferUpdated = s.frameBufferUpdated := rfl
@[simp] theorem setSp_playSound (w : Word) : (s.setSp w).playSound = s.playSound := rfl
@[simp] theorem setSp_rngSeed (w : Word) : (s.setSp w).rngSeed = s.rngSeed := rfl
@[simp] theorem setSp_rngCount (w : Word) : (s.setSp w).rngCount = s.rngCount := rfl
@[simp] theorem setSp_fault (w : Word) : (s.setSp w).fault = s.fault := rfl
@[simp] theorem setSp_elapsedQueue (w : Word) : (s.setSp w).elapsedQueue = s.elapsedQueue := rfl
@[simp] theorem setSp_freeCount (w : Word) : (s.setSp w).freeCount = s.freeCount := rfl

/-! ### advance -/

@[simp] theorem advance_v : (s.advance).v = s.v := rfl
@[simp] theorem advance_i : (s.advance).i = s.i := rfl
@[simp] theorem advance_pc : (s.advance).pc = s.pc + 2#16 := rfl
@[simp] theorem advance_sp : (s.advance).sp = s.sp := rfl
@[simp] theorem advance_dt : (s.advance).dt = s.dt := rfl
@[simp] theorem advance_dtAcc : (s.advance).dtAcc = s.dtAcc := rfl
@[simp] theorem advance_mem : (s.advance).mem = s.mem := rfl
@[simp] theorem advance_fb : (s.advance).fb = s.fb := rfl
@[simp] theorem advance_finished : (s.advance).finished = s.finished := rfl
@[simp] theorem advance_frameBufferUpdated : (s.advance).frameBufferUpdated = s.frameBufferUpdated := rfl
@[simp] theorem advance_playSound : (s.advance).playSound = s.playSound := rfl
@[simp] theorem advance_rngSeed : (s.advance).rngSeed = s.rngSeed := rfl
@[simp] theorem advance_rngCount : (s.advance).rngCount = s.rngCount := rfl
@[simp] theorem advance_fault : (s.advance).fault = s.fault := rfl
@[simp] theorem advance_elapsedQueue : (s.advance).elapsedQueue = s.elapsedQueue := rfl
@[simp] theorem advance_freeCount : (s.advance).freeCount = s.freeCount := rfl

/-! ### raise -/

@[simp] theorem raise_v (f : Fault) : (s.raise f).v = s.v := rfl
@[simp] theorem raise_i (f : Fault) : (s.raise f).i = s.i := rfl
@[simp] theorem raise_pc (f : Fault) : (s.raise f).pc = s.pc := rfl
@[simp] theorem raise_sp (f : Fault) : (s.raise f).sp = s.sp := rfl
@[simp] theorem raise_dt (f : Fault) : (s.raise f).dt = s.dt := rfl
@[simp] theorem raise_dtAcc (f : Fault) : (s.raise f).dtAcc = s.dtAcc := rfl
@[simp] theorem raise_mem (f : Fault) : (s.raise f).mem = s.mem := rfl
@[simp] theorem raise_fb (f : Fault) : (s.raise f).fb = s.fb := rfl
@[simp] theorem raise_finished (f : Fault) : (s.raise f).finished = s.finished := rfl
@[simp] theorem raise_frameBufferUpdated (f : Fault) : (s.raise f).frameBufferUpdated = s.frameBufferUpdated := rfl
@[simp] theorem raise_playSound (f : Fault) : (s.raise f).playSound = s.playSound := rfl
@[simp] theorem raise_rngSeed (f : Fault) : (s.raise f).rngSeed = s.rngSeed := rfl
@[simp] theorem raise_rngCount (f : Fault) : (s.raise f).rngCount = s.rngCount := rfl
@[simp] theorem raise_fault (f : Fault) : (s.raise f).fault = some f := rfl
@[simp] theorem raise_elapsedQueue (f : Fault) : (s.raise f).elapsedQueue = s.elapsedQueue := rfl
@[simp] theorem raise_freeCount (f : Fault) : (s.raise f).freeCount = s.freeCount := rfl

/-! ### setMem -/

@[simp] theorem setMem_v (m : Memory) : (s.setMem m).v = s.v := rfl
@[simp] theorem setMem_i (m : Memory) : (s.setMem m).i = s.i := rfl
@[simp] theorem setMem_pc (m : Memory) : (s.setMem m).pc = s.pc := rfl
@[simp] theorem setMem_sp (m : Memory) : (s.setMem m).sp = s.sp := rfl
@[simp] theorem setMem_dt (m : Memory) : (s.setMem m).dt = s.dt := rfl
@[simp] theorem setMem_dtAcc (m : Memory) : (s.setMem m).dtAcc = s.dtAcc := rfl
@[simp] theorem setMem_mem (m : Memory) : (s.setMem m).mem = m := rfl
@[simp] theorem setMem_fb (m : Memory) : (s.setMem m).fb = s.fb := rfl
@[simp] theorem setMem_finished (m : Memory) : (s.setMem m).finished = s.finished := rfl
@[simp] theorem setMem_frameBufferUpdated (m : Memory) : (s.setMem m).frameBufferUpdated = s.frameBufferUpdated := rfl
@[simp] theorem setMem_playSound (m : Memory) : (s.setMem m).playSound = s.playSound := rfl
@[simp] theorem setMem_rngSeed (m : Memory) : (s.setMem m).rngSeed = s.rngSeed := rfl
@[simp] theorem setMem_rngCount (m : Memory) : (s.setMem m).rngCount = s.rngCount := rfl
@[simp] theorem setMem_fault (m : Memory) : (s.setMem m).fault = s.fault := rfl
@[simp] theorem setMem_elapsedQueue (m : Memory) : (s.setMem m).elapsedQueue = s.elapsedQueue := rfl
@[simp] theorem setMem_freeCount (m : Memory) : (s.setMem m).freeCount = s.freeCount := rfl

/-! ### setTimer -/

@[simp] theorem setTimer_v (d : Byte) (a : Rat) : (s.setTimer d a).v = s.v := rfl
@[simp] theorem setTimer_i (d : Byte) (a : Rat) : (s.setTimer d a).i = s.i := rfl
@[simp] theorem setTimer_pc (d : Byte) (a : Rat) : (s.setTimer d a).pc = s.pc := rfl
@[simp] theorem setTimer_sp (d : Byte) (a : Rat) : (s.setTimer d a).sp = s.sp := rfl
@[simp] theorem setTimer_dt (d : Byte) (a : Rat) : (s.setTimer d a).dt = d := rfl
@[simp] theorem setTimer_dtAcc (d : Byte) (a : Rat) : (s.setTimer d a).dtAcc = a := rfl
@[simp] theorem setTimer_mem (d : Byte) (a : Rat) : (s.setTimer d a).mem = s.mem := rfl
@[simp] theorem setTimer_fb (d : Byte) (a : Rat) : (s.setTimer d a).fb = s.fb := rfl
@[simp] theorem setTimer_finished (d : Byte) (a : Rat) : (s.setTimer d a).finished = s.finished := rfl
@[simp] theorem setTimer_frameBufferUpdated (d : Byte) (a : Rat) : (s.setTimer d a).frameBufferUpdated = s.frameBufferUpdated := rfl
@[simp] theorem setTimer_playSound (d : Byte) (a : Rat) : (s.setTimer d a).playSound = s.playSound := rfl
@[simp] theorem setTimer_rngSeed (d : Byte) (a : Rat) : (s.setTimer d a).rngSeed = s.rngSeed := rfl
@[simp] theorem setTimer_rngCount (d : Byte) (a : Rat) : (s.setTimer d a).rngCount = s.rngCount := rfl
@[simp] theorem setTimer_fault (d : Byte) (a : Rat) : (s.setTimer d a).fault = s.fault := rfl
@[simp] theorem setTimer_elapsedQueue (d : Byte) (a : Rat) : (s.setTimer d a).elapsedQueue = s.elapsedQueue := rfl
@[simp] theorem setTimer_freeCount (d : Byte) (a : Rat) : (s.setTimer d a).freeCount = s.freeCount := rfl

/-! ### setFb -/

@[simp] theorem setFb_v (g : FrameBuffer) : (s.setFb g).v = s.v := rfl
@[simp] theorem setFb_i (g : FrameBuffer) : (s.setFb g).i = s.i := rfl
@[simp] theorem setFb_pc (g : FrameBuffer) : (s.setFb g).pc = s.pc := rfl
@[simp] theorem setFb_sp (g : FrameBuffer) : (s.setFb g).sp = s.sp := rfl
@[simp] theorem setFb_dt (g : FrameBuffer) : (s.setFb g).dt = s.dt := rfl
@[simp] theorem setFb_dtAcc (g : FrameBuffer) : (s.setFb g).dtAcc = s.dtAcc := rfl
@[simp] theorem setFb_mem (g : FrameBuffer) : (s.setFb g).mem = s.mem := rfl
@[simp] theorem setFb_fb (g : FrameBuffer) : (s.setFb g).fb = g := rfl
@[simp] theorem setFb_finished (g : FrameBuffer) : (s.setFb g).finished = s.finished := rfl
@[simp] theorem setFb_frameBufferUpdated (g : FrameBuffer) : (s.setFb g).frameBufferUpdated = s.frameBufferUpdated := rfl
@[simp] theorem setFb_playSound (g : FrameBuffer) : (s.setFb g).playSound = s.playSound := rfl
@[simp] theorem setFb_rngSeed (g : FrameBuffer) : (s.setFb g).rngSeed = s.rngSeed := rfl
@[simp] theorem setFb_rngCount (g : FrameBuffer) : (s.setFb g).rngCount = s.rngCount := rfl
@[simp] theorem setFb_fault (g : FrameBuffer) : (s.setFb g).fault = s.fault := rfl
@[simp] theorem setFb_elapsedQueue (g : FrameBuffer) : (s.setFb g).elapsedQueue = s.elapsedQueue := rfl
@[simp] theorem setFb_freeCount (g : FrameBuffer) : (s.setFb g).freeCount = s.freeCount := rfl

/-! ### setFbu -/

@[simp] theorem setFbu_v (c : Bool) : (s.setFbu c).v = s.v := rfl
@[simp] theorem setFbu_i (c : Bool) : (s.setFbu c).i = s.i := rfl
@[simp] theorem setFbu_pc (c : Bool) : (s.setFbu c).pc = s.pc := rfl
@[simp] theorem setFbu_sp (c : Bool) : (s.setFbu c).sp = s.sp := rfl
@[simp] theorem setFbu_dt (c : Bool) : (s.setFbu c).dt = s.dt := rfl
@[simp] theorem setFbu_dtAcc (c : Bool) : (s.setFbu c).dtAcc = s.dtAcc := rfl
@[simp] theorem setFbu_mem (c : Bool) : (s.setFbu c).mem = s.mem := rfl
@[simp] theorem setFbu_fb (c : Bool) : (s.setFbu c).fb = s.fb := rfl
@[simp] theorem setFbu_finished (c : Bool) : (s.setFbu c).finished = s.finished := rfl
@[simp] theorem setFbu_frameBufferUpdated (c : Bool) : (s.setFbu c).frameBufferUpdated = c := rfl
@[simp] theorem setFbu_playSound (c : Bool) : (s.setFbu c).playSound = s.playSound := rfl
@[simp] theorem setFbu_rngSeed (c : Bool) : (s.setFbu c).rngSeed = s.rngSeed := rfl
@[simp] theorem setFbu_rngCount (c : Bool) : (s.setFbu c).rngCount = s.rngCount := rfl
@[simp] theorem setFbu_fault (c : Bool) : (s.setFbu c).fault = s.fault := rfl
@[simp] theorem setFbu_elapsedQueue (c : Bool) : (s.setFbu c).elapsedQueue = s.elapsedQueue := rfl
@[simp] theorem setFbu_freeCount (c : Bool) : (s.setFbu c).freeCount = s.freeCount := rfl

/-! ### setFinished -/

@[simp] theorem setFinished_v : (s.setFinished).v = s.v := rfl
@[simp] theorem setFinished_i : (s.setFinished).i = s.i := rfl
@[simp] theorem setFinished_pc : (s.setFinished).pc = s.pc := rfl
@[simp] theorem setFinished_sp : (s.setFinished).sp = s.sp := rfl
@[simp] theorem setFinished_dt : (s.setFinished).dt = s.dt := rfl
@[simp] theorem setFinished_dtAcc : (s.setFinished).dtAcc = s.dtAcc := rfl
@[simp] theorem setFinished_mem : (s.setFinished).mem = s.mem := rfl
@[simp] theorem setFinished_fb : (s.setFinished).fb = s.fb := rfl
@[simp] theorem setFinished_finished : (s.setFinished).finished = true := rfl
@[simp] theorem setFinished_frameBufferUpdated : (s.setFinished).frameBufferUpdated = s.frameBufferUpdated := rfl
@[simp] theorem setFinished_playSound : (s.setFinished).playSound = s.playSound := rfl
@[simp] theorem setFinished_rngSeed : (s.setFinished).rngSeed = s.rngSeed := rfl
@[simp] theorem setFinished_rngCount : (s.setFinished).rngCount = s.rngCount := rfl
@[simp] theorem setFinished_fault : (s.setFinished).fault = s.fault := rfl
@[simp] theorem setFinished_elapsedQueue : (s.setFinished).elapsedQueue = s.elapsedQueue := rfl
@[simp] theorem setFinished_freeCount : (s.setFinished).freeCount = s.freeCount := rfl

/-! ### countRand -/

@[simp] theorem countRand_v : (s.countRand).v = s.v := rfl
@[simp] theorem countRand_i : (s.countRand).i = s.i := rfl
@[simp] theorem countRand_pc : (s.countRand).pc = s.pc := rfl
@[simp] theorem countRand_sp : (s.countRand).sp = s.sp := rfl
@[simp] theorem countRand_dt : (s.countRand).dt = s.dt := rfl
@[simp] theorem countRand_dtAcc : (s.countRand).dtAcc = s.dtAcc := rfl
@[simp] theorem countRand_mem : (s.countRand).mem = s.mem := rfl
@[simp] theorem countRand_fb : (s.countRand).fb = s.fb := rfl
@[simp] theorem countRand_finished : (s.countRand).finished = s.finished := rfl
@[simp] theorem countRand_frameBufferUpdated : (s.countRand).frameBufferUpdated = s.frameBufferUpdated := rfl
@[simp] theorem countRand_playSound : (s.countRand).playSound = s.playSound := rfl
@[simp] theorem countRand_rngSeed : (s.countRand).rngSeed = s.rngSeed := rfl
@[simp] theorem countRand_rngCount : (s.countRand).rngCount = s.rngCount + 1 := rfl
@[simp] theorem countRand_fault : (s.countRand).fault = s.fault := rfl
@[simp] theorem countRand_elapsedQueue : (s.countRand).elapsedQueue = s.elapsedQueue := rfl
@[simp] theorem countRand_freeCount : (s.countRand).freeCount = s.freeCount := rfl

/-! ### countFree -/

@[simp] theorem countFree_v : (s.countFree).v = s.v := rfl
@[simp] theorem countFree_i : (s.countFree).i = s.i := rfl
@[simp] theorem countFree_pc : (s.countFree).pc = s.pc := rfl
@[simp] theorem countFree_sp : (s.countFree).sp = s.sp := rfl
@[simp] theorem countFree_dt : (s.countFree).dt = s.dt := rfl
@[simp] theorem countFree_dtAcc : (s.countFree).dtAcc = s.dtAcc := rfl
@[simp] theorem countFree_mem : (s.countFree).mem = s.mem := rfl
@[simp] theorem countFree_fb : (s.countFree).fb = s.fb := rfl
@[simp] theorem countFree_finished : (s.countFree).finished = s.finished := rfl
@[simp] theorem countFree_frameBufferUpdated : (s.countFree).frameBufferUpdated = s.frameBufferUpdated := rfl
@[simp] theorem countFree_playSound : (s.countFree).playSound = s.playSound := rfl
@[simp] theorem countFree_rngSeed : (s.countFree).rngSeed = s.rngSeed := rfl
@[simp] theorem countFree_rngCount : (s.countFree).rngCount = s.rngCount := rfl
@[simp] theorem countFree_fault : (s.countFree).fault = s.fault := rfl
@[simp] theorem countFree_elapsedQueue : (s.countFree).elapsedQueue = s.elapsedQueue := rfl
@[simp] theorem countFree_freeCount : (s.countFree).freeCount = s.freeCount + 1 := rfl

/-! ### setQueue -/

@[simp] theorem setQueue_v (q : List Millis) : (s.setQueue q).v = s.v := rfl
@[simp] theorem setQueue_i (q : List Millis) : (s.setQueue q).i = s.i := rfl
@[simp] theorem setQueue_pc (q : List Millis) : (s.setQueue q).pc = s.pc := rfl
@[simp] theorem setQueue_sp (q : List Millis) : (s.setQueue q).sp = s.sp := rfl
@[simp] theorem setQueue_dt (q : List Millis) : (s.setQueue q).dt = s.dt := rfl
@[simp] theorem setQueue_dtAcc (q : List Millis) : (s.setQueue q).dtAcc = s.dtAcc := rfl
@[simp] theorem setQueue_mem (q : List Millis) : (s.setQueue q).mem = s.mem := rfl
@[simp] theorem setQueue_fb (q : List Millis) : (s.setQueue q).fb = s.fb := rfl
@[simp] theorem setQueue_finished (q : List Millis) : (s.setQueue q).finished = s.finished := rfl
@[simp] theorem setQueue_frameBufferUpdated (q : List Millis) : (s.setQueue q).frameBufferUpdated = s.frameBufferUpdated := rfl
@[simp] theorem setQueue_playSound (q : List Millis) : (s.setQueue q).playSound = s.playSound := rfl
@[simp] theorem setQueue_rngSeed (q : List Millis) : (s.setQueue q).rngSeed = s.rngSeed := rfl
@[simp] theorem setQueue_rngCount (q : List Millis) : (s.setQueue q).rngCount = s.rngCount := rfl
@[simp] theorem setQueue_fault (q : List Millis) : (s.setQueue q).fault = s.fault := rfl
@[simp] theorem setQueue_elapsedQueue (q : List Millis) : (s.setQueue q).elapsedQueue = q := rfl
@[simp] theorem setQueue_freeCount (q : List Millis) : (s.setQueue q).freeCount = s.freeCount := rfl

/-! ### skipIf -/

@[simp] theorem skipIf_pc (c : Bool) : (s.skipIf c).pc = if c then s.pc + 4#16 else s.pc + 2#16 := by cases c <;> rfl
@[simp] theorem skipIf_v (c : Bool) : (s.skipIf c).v = s.v := by cases c <;> rfl
@[simp] theorem skipIf_i (c : Bool) : (s.skipIf c).i = s.i := by cases c <;> rfl
@[simp] theorem skipIf_sp (c : Bool) : (s.skipIf c).sp = s.sp := by cases c <;> rfl
@[simp] theorem skipIf_dt (c : Bool) : (s.skipIf c).dt = s.dt := by cases c <;> rfl
@[simp] theorem skipIf_dtAcc (c : Bool) : (s.skipIf c).dtAcc = s.dtAcc := by cases c <;> rfl
@[simp] theorem skipIf_mem (c : Bool) : (s.skipIf c).mem = s.mem := by cases c <;> rfl
@[simp] theorem skipIf_fb (c : Bool) : (s.skipIf c).fb = s.fb := by cases c <;> rfl
@[simp] theorem skipIf_finished (c : Bool) : (s.skipIf c).finished = s.finished := by cases c <;> rfl
@[simp] theorem skipIf_frameBufferUpdated (c : Bool) : (s.skipIf c).frameBufferUpdated = s.frameBufferUpdated := by cases c <;> rfl
@[simp] theorem skipIf_playSound (c : Bool) : (s.skipIf c).playSound = s.playSound := by cases c <;> rfl
@[simp] theorem skipIf_rngSeed (c : Bool) : (s.skipIf c).rngSeed = s.rngSeed := by cases c <;> rfl
@[simp] theorem skipIf_rngCount (c : Bool) : (s.skipIf c).rngCount = s.rngCount := by cases c <;> rfl
@[simp] theorem skipIf_fault (c : Bool) : (s.skipIf c).fault = s.fault := by cases c <;> rfl
@[simp] theorem skipIf_elapsedQueue (c : Bool) : (s.skipIf c).elapsedQueue = s.elapsedQueue := by cases c <;> rfl
@[simp] theorem skipIf_freeCount (c : Bool) : (s.skipIf c).freeCount = s.freeCount := by cases c <;> rfl

/-! ### setResultFlag -/

@[simp] theorem setResultFlag_v (x : RegIdx) (b c : Byte) : (s.setResultFlag x b c).v = ((s.setV x b).setV VF c).v := rfl
@[simp] theorem setResultFlag_i (x : RegIdx) (b c : Byte) : (s.setResultFlag x b c).i = s.i := rfl
@[simp] theorem setResultFlag_pc (x : RegIdx) (b c : Byte) : (s.setResultFlag x b c).pc = s.pc := rfl
@[simp] theorem setResultFlag_sp (x : RegIdx) (b c : Byte) : (s.setResultFlag x b c).sp = s.sp := rfl
@[simp] theorem setResultFlag_dt (x : RegIdx) (b c : Byte) : (s.setResultFlag x b c).dt = s.dt := rfl
@[simp] theorem setResultFlag_dtAcc (x : RegIdx) (b c : Byte) : (s.setResultFlag x b c).dtAcc = s.dtAcc := rfl
@[simp] theorem setResultFlag_mem (x : RegIdx) (b c : Byte) : (s.setResultFlag x b c).mem = s.mem := rfl
@[simp] theorem setResultFlag_fb (x : RegIdx) (b c : Byte) : (s.setResultFlag x b c).fb = s.fb := rfl
@[simp] theorem setResultFlag_finished (x : RegIdx) (b c : Byte) : (s.setResultFlag x b c).finished = s.finished := rfl
@[simp] theorem setResultFlag_frameBufferUpdated (x : RegIdx) (b c : Byte) : (s.setResultFlag x b c).frameBufferUpdated = s.frameBufferUpdated := rfl
@[simp] theorem setResultFlag_playSound (x : RegIdx) (b c : Byte) : (s.setResultFlag x b c).playSound = s.playSound := rfl
@[simp] theorem setResultFlag_rngSeed (x : RegIdx) (b c : Byte) : (s.setResultFlag x b c).rngSeed = s.rngSeed := rfl
@[simp] theorem setResultFlag_rngCount (x : RegIdx) (b c : Byte) : (s.setResultFlag x b c).rngCount = s.rngCount := rfl
@[simp] theorem setResultFlag_fault (x : RegIdx) (b c : Byte) : (s.setResultFlag x b c).fault = s.fault := rfl
@[simp] theorem setResultFlag_elapsedQueue (x : RegIdx) (b c : Byte) : (s.setResultFlag x b c).elapsedQueue = s.elapsedQueue := rfl
@[simp] theorem setResultFlag_freeCount (x : RegIdx) (b c : Byte) : (s.setResultFlag x b c).freeCount = s.freeCount := rfl

/-! ### Registers (R20) -/

theorem getV_setV (x y : RegIdx) (b : Byte) : (s.setV x b).getV y = if x = y then b else s.getV y := by
  unfold getV setV
  rw [Vector.getElem_set]
  simp only [BitVec.toNat_inj]

@[simp] theorem getV_setV_same (x : RegIdx) (b : Byte) : (s.setV x b).getV x = b := by simp [getV_setV]

@[simp] theorem getV_setV_other {x y : RegIdx} (h : y ≠ x) (b : Byte) : (s.setV x b).getV y = s.getV y := by
  simp [getV_setV, h.symm]

/-- The flag is what VF holds afterwards, also when VF is the destination (R160). -/
@[simp] theorem getV_setResultFlag_flag (x : RegIdx) (b c : Byte) : (s.setResultFlag x b c).getV VF = c :=
  getV_setV_same _ _ _

@[simp] theorem getV_setResultFlag_result {x : RegIdx} (h : x ≠ VF) (b c : Byte) : (s.setResultFlag x b c).getV x = b := by
  rw [setResultFlag, getV_setV_other _ h, getV_setV_same]

@[simp] theorem getV_setResultFlag_other {x y : RegIdx} (hx : y ≠ x) (hf : y ≠ VF) (b c : Byte) :
    (s.setResultFlag x b c).getV y = s.getV y := by
  rw [setResultFlag, getV_setV_other _ hf, getV_setV_other _ hx]

/-- The value of a 12-bit address operand (R94). -/
@[simp] theorem addrOperand_toNat (nnn : Addr) : (addrOperand nnn).toNat = nnn.toNat := by
  have := nnn.isLt
  simp [addrOperand]; omega

@[simp] theorem getV_setI (w : Word) (x : RegIdx) : (s.setI w).getV x = s.getV x := rfl
@[simp] theorem getV_setPc (w : Word) (x : RegIdx) : (s.setPc w).getV x = s.getV x := rfl
@[simp] theorem getV_setSp (w : Word) (x : RegIdx) : (s.setSp w).getV x = s.getV x := rfl
@[simp] theorem getV_advance (x : RegIdx) : (s.advance).getV x = s.getV x := rfl
@[simp] theorem getV_raise (f : Fault) (x : RegIdx) : (s.raise f).getV x = s.getV x := rfl
@[simp] theorem getV_setMem (m : Memory) (x : RegIdx) : (s.setMem m).getV x = s.getV x := rfl
@[simp] theorem getV_setTimer (d : Byte) (a : Rat) (x : RegIdx) : (s.setTimer d a).getV x = s.getV x := rfl
@[simp] theorem getV_setFb (g : FrameBuffer) (x : RegIdx) : (s.setFb g).getV x = s.getV x := rfl
@[simp] theorem getV_setFbu (c : Bool) (x : RegIdx) : (s.setFbu c).getV x = s.getV x := rfl
@[simp] theorem getV_setFinished (x : RegIdx) : (s.setFinished).getV x = s.getV x := rfl
@[simp] theorem getV_countRand (x : RegIdx) : (s.countRand).getV x = s.getV x := rfl
@[simp] theorem getV_countFree (x : RegIdx) : (s.countFree).getV x = s.getV x := rfl
@[simp] theorem getV_setQueue (q : List Millis) (x : RegIdx) : (s.setQueue q).getV x = s.getV x := rfl
@[simp] theorem getV_skipIf (c : Bool) (x : RegIdx) : (s.skipIf c).getV x = s.getV x := by cases c <;> rfl

/-! ### Reading one byte -/

@[simp] theorem byteAt_setV (x : RegIdx) (b : Byte) (adr : Nat) : (s.setV x b).byteAt adr = s.byteAt adr := rfl
@[simp] theorem byteAt_setI (w : Word) (adr : Nat) : (s.setI w).byteAt adr = s.byteAt adr := rfl
@[simp] theorem byteAt_setPc (w : Word) (adr : Nat) : (s.setPc w).byteAt adr = s.byteAt adr := rfl
@[simp] theorem byteAt_setSp (w : Word) (adr : Nat) : (s.setSp w).byteAt adr = s.byteAt adr := rfl
@[simp] theorem byteAt_advance (adr : Nat) : (s.advance).byteAt adr = s.byteAt adr := rfl
@[simp] theorem byteAt_raise (f : Fault) (adr : Nat) : (s.raise f).byteAt adr = s.byteAt adr := rfl
@[simp] theorem byteAt_setTimer (d : Byte) (a : Rat) (adr : Nat) : (s.setTimer d a).byteAt adr = s.byteAt adr := rfl
@[simp] theorem byteAt_setFb (g : FrameBuffer) (adr : Nat) : (s.setFb g).byteAt adr = s.byteAt adr := rfl
@[simp] theorem byteAt_setFbu (c : Bool) (adr : Nat) : (s.setFbu c).byteAt adr = s.byteAt adr := rfl
@[simp] theorem byteAt_setFinished (adr : Nat) : (s.setFinished).byteAt adr = s.byteAt adr := rfl
@[simp] theorem byteAt_countRand (adr : Nat) : (s.countRand).byteAt adr = s.byteAt adr := rfl
@[simp] theorem byteAt_countFree (adr : Nat) : (s.countFree).byteAt adr = s.byteAt adr := rfl
@[simp] theorem byteAt_setQueue (q : List Millis) (adr : Nat) : (s.setQueue q).byteAt adr = s.byteAt adr := rfl
@[simp] theorem byteAt_setMem (m : Memory) (adr : Nat) : (s.setMem m).byteAt adr = Memory.readByte m adr := rfl
@[simp] theorem byteAt_skipIf (c : Bool) (adr : Nat) : (s.skipIf c).byteAt adr = s.byteAt adr := by cases c <;> rfl
@[simp] theorem byteAt_setResultFlag (x : RegIdx) (b c : Byte) (adr : Nat) : (s.setResultFlag x b c).byteAt adr = s.byteAt adr := rfl

@[simp] theorem indexAddr_zero : s.indexAddr 0 = s.i.toNat := rfl

/-! ### loadRegs (R234) -/

@[simp] theorem loadRegs_i (bs : List Byte) : ∀ (s : State) (k : Nat), (s.loadRegs k bs).i = s.i := by
  induction bs with
  | nil => intro s k; rfl
  | cons b bs ih => intro s k; rw [loadRegs, ih]; rfl
@[simp] theorem loadRegs_pc (bs : List Byte) : ∀ (s : State) (k : Nat), (s.loadRegs k bs).pc = s.pc := by
  induction bs with
  | nil => intro s k; rfl
  | cons b bs ih => intro s k; rw [loadRegs, ih]; rfl
@[simp] theorem loadRegs_sp (bs : List Byte) : ∀ (s : State) (k : Nat), (s.loadRegs k bs).sp = s.sp := by
  induction bs with
  | nil => intro s k; rfl
  | cons b bs ih => intro s k; rw [loadRegs, ih]; rfl
@[simp] theorem loadRegs_dt (bs : List Byte) : ∀ (s : State) (k : Nat), (s.loadRegs k bs).dt = s.dt := by
  induction bs with
  | nil => intro s k; rfl
  | cons b bs ih => intro s k; rw [loadRegs, ih]; rfl
@[simp] theorem loadRegs_dtAcc (bs : List Byte) : ∀ (s : State) (k : Nat), (s.loadRegs k bs).dtAcc = s.dtAcc := by
  induction bs with
  | nil => intro s k; rfl
  | cons b bs ih => intro s k; rw [loadRegs, ih]; rfl
@[simp] theorem loadRegs_mem (bs : List Byte) : ∀ (s : State) (k : Nat), (s.loadRegs k bs).mem = s.mem := by
  induction bs with
  | nil => intro s k; rfl
  | cons b bs ih => intro s k; rw [loadRegs, ih]; rfl
@[simp] theorem loadRegs_fb (bs : List Byte) : ∀ (s : State) (k : Nat), (s.loadRegs k bs).fb = s.fb := by
  induction bs with
  | nil => intro s k; rfl
  | cons b bs ih => intro s k; rw [loadRegs, ih]; rfl
@[simp] theorem loadRegs_finished (bs : List Byte) : ∀ (s : State) (k : Nat), (s.loadRegs k bs).finished = s.finished := by
  induction bs with
  | nil => intro s k; rfl
  | cons b bs ih => intro s k; rw [loadRegs, ih]; rfl
@[simp] theorem loadRegs_frameBufferUpdated (bs : List Byte) : ∀ (s : State) (k : Nat), (s.loadRegs k bs).frameBufferUpdated = s.frameBufferUpdated := by
  induction bs with
  | nil => intro s k; rfl
  | cons b bs ih => intro s k; rw [loadRegs, ih]; rfl
@[simp] theorem loadRegs_playSound (bs : List Byte) : ∀ (s : State) (k : Nat), (s.loadRegs k bs).playSound = s.playSound := by
  induction bs with
  | nil => intro s k; rfl
  | cons b bs ih => intro s k; rw [loadRegs, ih]; rfl
@[simp] theorem loadRegs_rngSeed (bs : List Byte) : ∀ (s : State) (k : Nat), (s.loadRegs k bs).rngSeed = s.rngSeed := by
  induction bs with
  | nil => intro s k; rfl
  | cons b bs ih => intro s k; rw [loadRegs, ih]; rfl
@[simp] theorem loadRegs_rngCount (bs : List Byte) : ∀ (s : State) (k : Nat), (s.loadRegs k bs).rngCount = s.rngCount := by
  induction bs with
  | nil => intro s k; rfl
  | cons b bs ih => intro s k; rw [loadRegs, ih]; rfl
@[simp] theorem loadRegs_fault (bs : List Byte) : ∀ (s : State) (k : Nat), (s.loadRegs k bs).fault = s.fault := by
  induction bs with
  | nil => intro s k; rfl
  | cons b bs ih => intro s k; rw [loadRegs, ih]; rfl
@[simp] theorem loadRegs_elapsedQueue (bs : List Byte) : ∀ (s : State) (k : Nat), (s.loadRegs k bs).elapsedQueue = s.elapsedQueue := by
  induction bs with
  | nil => intro s k; rfl
  | cons b bs ih => intro s k; rw [loadRegs, ih]; rfl
@[simp] theorem loadRegs_freeCount (bs : List Byte) : ∀ (s : State) (k : Nat), (s.loadRegs k bs).freeCount = s.freeCount := by
  induction bs with
  | nil => intro s k; rfl
  | cons b bs ih => intro s k; rw [loadRegs, ih]; rfl

@[simp] theorem byteAt_loadRegs (bs : List Byte) (k a : Nat) : (s.loadRegs k bs).byteAt a = s.byteAt a := by
  simp [byteAt]

/-- What `V[k] <- b0, V[k+1] <- b1, …` leaves in each register. -/
theorem getV_loadRegs (bs : List Byte) : ∀ (s : State) (k : Nat), k + bs.length ≤ 16 → ∀ x : RegIdx,
    (s.loadRegs k bs).getV x =
      if k ≤ x.toNat ∧ x.toNat < k + bs.length then bs.getD (x.toNat - k) 0#8 else s.getV x := by
  induction bs with
  | nil => intro s k _ x; simp [loadRegs]
  | cons b bs ih =>
    intro s k hk x
    simp only [List.length_cons] at hk ⊢
    rw [loadRegs, ih _ _ (by omega)]
    have hx := x.isLt
    by_cases h : x.toNat = k
    · have hbx : BitVec.ofNat 4 k = x := by rw [← h]; simp
      simp [h, hbx]
    · have hne : x ≠ BitVec.ofNat 4 k := by
        intro e; apply h; rw [e]; simp; omega
      rw [getV_setV_other _ hne]
      by_cases h2 : k + 1 ≤ x.toNat ∧ x.toNat < k + 1 + bs.length
      · have h3 : k ≤ x.toNat ∧ x.toNat < k + (bs.length + 1) := by omega
        rw [if_pos h2, if_pos h3]
        obtain ⟨d, hd⟩ : ∃ d, x.toNat - k = d + 1 := ⟨x.toNat - k - 1, by omega⟩
        have hd' : x.toNat - (k + 1) = d := by omega
        rw [hd, hd', List.getD_cons_succ]
      · rw [if_neg h2, if_neg (by omega)]

/-- Two states with the same sixteen registers have the same register file. -/
theorem v_ext {s t : State} (h : ∀ x : RegIdx, s.getV x = t.getV x) : s.v = t.v := by
  apply Vector.ext
  intro k hk
  have := h (BitVec.ofNat 4 k)
  simpa [getV, Nat.mod_eq_of_lt hk] using this

end State
end Sys2Proof.Machine
end

