-- ==== Sys2Proof/Laws/Ops.lean ====
section
/-! SUPPORT. What each shared operation over State can do, said once. -/

namespace Sys2Proof.Machine
namespace State

variable (s : State)

/-! ### One byte (R65) -/

theorem memRead_ok {a : Nat} (h : a < Config.memSize) : s.memRead a = .ok (s.byteAt a) := if_pos h

theorem memRead_error {a : Nat} (h : Config.memSize ≤ a) : s.memRead a = .error (.addressOutOfRange a) :=
  if_neg (Nat.not_lt.mpr h)

theorem memWrite_ok {a : Nat} (h : a < Config.memSize) (b : Byte) :
    s.memWrite a b = .ok (s.setMem (Memory.writeByte s.mem a b)) := if_pos h

theorem memWrite_error {a : Nat} (h : Config.memSize ≤ a) (b : Byte) :
    s.memWrite a b = .error (.addressOutOfRange a) := if_neg (Nat.not_lt.mpr h)

@[simp] theorem setMem_mem_self : s.setMem s.mem = s := rfl

@[simp] theorem setMem_setMem (m n : Memory) : (s.setMem m).setMem n = s.setMem n := rfl

/-! ### Several bytes: all inside memory, or the lowest address outside is the fault (R65, R329) -/

theorem readBytes_ok (n : Nat) : ∀ a, n = 0 ∨ a + n ≤ Config.memSize →
    s.readBytes a n = .ok ((List.range n).map fun k => s.byteAt (a + k)) := by
  induction n with
  | zero => intro a _; rfl
  | succ n ih =>
    intro a h
    have ha : a < Config.memSize := by omega
    rw [readBytes, memRead_ok s ha]
    simp only [ih (a + 1) (by omega)]
    rw [List.range_succ_eq_map, List.map_cons, List.map_map]
    simp [Function.comp_def, Nat.add_assoc, Nat.add_comm 1]

theorem readBytes_error (n : Nat) : ∀ a, n ≠ 0 → Config.memSize < a + n →
    s.readBytes a n = .error (.addressOutOfRange (max a Config.memSize)) := by
  induction n with
  | zero => intro a h _; exact absurd rfl h
  | succ n ih =>
    intro a _ h
    rw [readBytes]
    by_cases ha : a < Config.memSize
    · rw [memRead_ok s ha]
      simp only [ih (a + 1) (by omega) (by omega)]
      rw [Nat.max_eq_right (by omega), Nat.max_eq_right (by omega)]
    · rw [memRead_error s (by omega), Nat.max_eq_left (by omega)]

theorem writeBytes_ok (bs : List Byte) : ∀ (s : State) (a : Nat), bs = [] ∨ a + bs.length ≤ Config.memSize →
    s.writeBytes a bs = .ok (s.setMem (Memory.storeBytes s.mem a bs)) := by
  induction bs with
  | nil => intro s a _; rfl
  | cons b bs ih =>
    intro s a h
    simp only [List.length_cons, reduceCtorEq, false_or] at h
    rw [writeBytes, memWrite_ok s (by omega)]
    simp only
    rw [ih _ _ (by right; omega)]
    rfl

theorem writeBytes_error (bs : List Byte) : ∀ (s : State) (a : Nat), bs ≠ [] → Config.memSize < a + bs.length →
    s.writeBytes a bs = .error (.addressOutOfRange (max a Config.memSize)) := by
  induction bs with
  | nil => intro s a h _; exact absurd rfl h
  | cons b bs ih =>
    intro s a _ h
    simp only [List.length_cons] at h
    rw [writeBytes]
    by_cases ha : a < Config.memSize
    · rw [memWrite_ok s ha]
      simp only
      rw [ih _ _ (by intro e; subst e; simp at h; omega) (by omega), Nat.max_eq_right (by omega), Nat.max_eq_right (by omega)]
    · rw [memWrite_error s (by omega), Nat.max_eq_left (by omega)]

/-- The big-endian word at `a`. -/
def wordAt (a : Nat) : Word := wordOfBytes (s.byteAt a) (s.byteAt (a + 1))

theorem memRead16_ok {a : Nat} (h : a + 1 < Config.memSize) : s.memRead16 a = .ok (s.wordAt a) := by
  rw [memRead16, memRead_ok s (by omega)]
  simp only [memRead_ok s h]
  rfl

theorem memRead16_error {a : Nat} (h : Config.memSize ≤ a + 1) :
    s.memRead16 a = .error (.addressOutOfRange (max a Config.memSize)) := by
  rw [memRead16]
  by_cases ha : a < Config.memSize
  · rw [memRead_ok s ha]
    simp only [memRead_error s h]
    rw [Nat.max_eq_right (by omega)]
    congr; omega
  · rw [memRead_error s (by omega), Nat.max_eq_left (by omega)]

theorem memWrite16_ok {a : Nat} (h : a + 1 < Config.memSize) (w : Word) :
    s.memWrite16 a w = .ok (s.setMem (Memory.storeBytes s.mem a [hiByte w, loByte w])) :=
  writeBytes_ok _ s a (by right; simp; omega)

theorem fetch_ok (h : s.pc.toNat + 1 < Config.memSize) : s.fetch = .ok (s.wordAt s.pc.toNat) := memRead16_ok s h

theorem fetch_error (h : Config.memSize ≤ s.pc.toNat + 1) :
    s.fetch = .error (.addressOutOfRange (max s.pc.toNat Config.memSize)) := memRead16_error s h

/-! ### Registers read and written together (R233, R234) -/

@[simp] theorem regsUpTo_length (x : RegIdx) : (s.regsUpTo x).length = x.toNat + 1 := by simp [regsUpTo]

theorem regsUpTo_getD {x k : RegIdx} (h : k.toNat ≤ x.toNat) : (s.regsUpTo x).getD k.toNat 0#8 = s.getV k := by
  have : k.toNat < x.toNat + 1 := by omega
  simp [regsUpTo, List.getD_eq_getElem?_getD, this]

end State

/-! ### Outcomes (R120, R327) -/

@[simp] theorem complete_ok (s t : State) : complete s (.ok t) = .next t := rfl

@[simp] theorem complete_error (s : State) (f : Fault) : complete s (.error f) = .next (s.raise f) := rfl

/-- An instruction's end is always a next state: its own, or the fault taken. -/
theorem complete_cases (s : State) (r : Attempt State) :
    (∃ t, r = .ok t ∧ complete s r = .next t) ∨ (∃ f, r = .error f ∧ complete s r = .next (s.raise f)) := by
  cases r with
  | ok t => exact .inl ⟨t, rfl, rfl⟩
  | error f => exact .inr ⟨f, rfl, rfl⟩

theorem rollback_none {s0 t : State} (h : t.fault = none) : rollback s0 (.next t) = .next t := by
  simp [rollback, h]

theorem rollback_some {s0 t : State} {f : Fault} (h : t.fault = some f) :
    rollback s0 (.next t) = .next (s0.raise f) := by
  simp [rollback, h]

theorem ended_eq_false_iff (s : State) : s.ended = false ↔ s.Running := by
  simp [State.ended, State.Running]

theorem ended_eq_true_iff (s : State) : s.ended = true ↔ s.fault ≠ none ∨ s.finished = true := by
  simp [State.ended, Option.isSome_iff_ne_none]

/-- What taking the `elapsedMs` argument can change: the queue and the counter of free values. -/
theorem takeElapsed_cases (s : State) :
    (∃ e rest, s.elapsedQueue = e :: rest ∧ s.takeElapsed = (e, s.setQueue rest)) ∨
    (s.elapsedQueue = [] ∧ s.takeElapsed = (Config.freeElapsed s.freeCount, s.countFree)) := by
  unfold State.takeElapsed
  cases h : s.elapsedQueue with
  | nil => exact .inr ⟨rfl, rfl⟩
  | cons e rest => exact .inl ⟨e, rest, rfl, rfl⟩

end Sys2Proof.Machine
end

