-- ==== Sys2Proof/Laws/Timer.lean ====
section
/-! SUPPORT. The timer phase (spec/46_timers.md R210): what it changes, what `floor(acc / 16.6)` is, and that it keeps the accumulator's
range (10_state.md R26). -/

namespace Sys2Proof.Machine

theorem timerPeriod_pos : 0 < timerPeriod := by norm_num [timerPeriod]

theorem millisValue_nonneg (e : Millis) : 0 ≤ millisValue e := by
  unfold millisValue; positivity

/-- `wholeTicks acc` is the number n of whole periods in `acc`: n * 16.6 ≤ acc < (n + 1) * 16.6. -/
theorem wholeTicks_spec {acc : Rat} (h : 0 ≤ acc) :
    (wholeTicks acc : Rat) * timerPeriod ≤ acc ∧ acc < ((wholeTicks acc : Rat) + 1) * timerPeriod := by
  have hp := timerPeriod_pos
  have hq : 0 ≤ acc / timerPeriod := by positivity
  have hf : 0 ≤ ⌊acc / timerPeriod⌋ := Int.floor_nonneg.mpr hq
  have hn : ((wholeTicks acc : Nat) : Rat) = ((⌊acc / timerPeriod⌋ : Int) : Rat) := by
    have hi : ((wholeTicks acc : Nat) : Int) = ⌊acc / timerPeriod⌋ := by
      unfold wholeTicks
      rw [show (acc / timerPeriod).floor = ⌊acc / timerPeriod⌋ from rfl]
      exact Int.toNat_of_nonneg hf
    exact_mod_cast congrArg (Int.cast : Int → Rat) hi
  rw [hn]
  constructor
  · have := Int.floor_le (acc / timerPeriod)
    calc ((⌊acc / timerPeriod⌋ : Int) : Rat) * timerPeriod ≤ acc / timerPeriod * timerPeriod := by gcongr
      _ = acc := by field_simp
  · have := Int.lt_floor_add_one (acc / timerPeriod)
    calc acc = acc / timerPeriod * timerPeriod := by field_simp
      _ < (((⌊acc / timerPeriod⌋ : Int) : Rat) + 1) * timerPeriod := by gcongr

variable (e : Millis) (s : State)

/-- What the timer phase can do (R210). -/
theorem timerPhase_cases :
    (s.dt = 0#8 ∧ timerPhase e s = s) ∨
    (s.dt ≠ 0#8 ∧ s.dt.toNat ≤ wholeTicks (s.dtAcc + millisValue e) ∧ timerPhase e s = s.setTimer 0#8 0) ∨
    (s.dt ≠ 0#8 ∧ wholeTicks (s.dtAcc + millisValue e) < s.dt.toNat ∧
      timerPhase e s = s.setTimer (s.dt - BitVec.ofNat 8 (wholeTicks (s.dtAcc + millisValue e)))
        (s.dtAcc + millisValue e - wholeTicks (s.dtAcc + millisValue e) * timerPeriod)) := by
  unfold timerPhase
  by_cases h : s.dt = 0#8
  · exact .inl ⟨h, by simp [h]⟩
  · by_cases h2 : s.dt.toNat ≤ wholeTicks (s.dtAcc + millisValue e)
    · exact .inr (.inl ⟨h, h2, by simp [h, h2]⟩)
    · exact .inr (.inr ⟨h, by omega, by simp [h, h2]⟩)

@[simp] theorem timerPhase_v : (timerPhase e s).v = s.v := by
  rcases timerPhase_cases e s with ⟨_, h⟩ | ⟨_, _, h⟩ | ⟨_, _, h⟩ <;> rw [h] <;> rfl

@[simp] theorem timerPhase_i : (timerPhase e s).i = s.i := by
  rcases timerPhase_cases e s with ⟨_, h⟩ | ⟨_, _, h⟩ | ⟨_, _, h⟩ <;> rw [h] <;> rfl

@[simp] theorem timerPhase_pc : (timerPhase e s).pc = s.pc := by
  rcases timerPhase_cases e s with ⟨_, h⟩ | ⟨_, _, h⟩ | ⟨_, _, h⟩ <;> rw [h] <;> rfl

@[simp] theorem timerPhase_sp : (timerPhase e s).sp = s.sp := by
  rcases timerPhase_cases e s with ⟨_, h⟩ | ⟨_, _, h⟩ | ⟨_, _, h⟩ <;> rw [h] <;> rfl

@[simp] theorem timerPhase_mem : (timerPhase e s).mem = s.mem := by
  rcases timerPhase_cases e s with ⟨_, h⟩ | ⟨_, _, h⟩ | ⟨_, _, h⟩ <;> rw [h] <;> rfl

@[simp] theorem timerPhase_fb : (timerPhase e s).fb = s.fb := by
  rcases timerPhase_cases e s with ⟨_, h⟩ | ⟨_, _, h⟩ | ⟨_, _, h⟩ <;> rw [h] <;> rfl

@[simp] theorem timerPhase_finished : (timerPhase e s).finished = s.finished := by
  rcases timerPhase_cases e s with ⟨_, h⟩ | ⟨_, _, h⟩ | ⟨_, _, h⟩ <;> rw [h] <;> rfl

@[simp] theorem timerPhase_frameBufferUpdated : (timerPhase e s).frameBufferUpdated = s.frameBufferUpdated := by
  rcases timerPhase_cases e s with ⟨_, h⟩ | ⟨_, _, h⟩ | ⟨_, _, h⟩ <;> rw [h] <;> rfl

@[simp] theorem timerPhase_playSound : (timerPhase e s).playSound = s.playSound := by
  rcases timerPhase_cases e s with ⟨_, h⟩ | ⟨_, _, h⟩ | ⟨_, _, h⟩ <;> rw [h] <;> rfl

@[simp] theorem timerPhase_rngSeed : (timerPhase e s).rngSeed = s.rngSeed := by
  rcases timerPhase_cases e s with ⟨_, h⟩ | ⟨_, _, h⟩ | ⟨_, _, h⟩ <;> rw [h] <;> rfl

@[simp] theorem timerPhase_rngCount : (timerPhase e s).rngCount = s.rngCount := by
  rcases timerPhase_cases e s with ⟨_, h⟩ | ⟨_, _, h⟩ | ⟨_, _, h⟩ <;> rw [h] <;> rfl

@[simp] theorem timerPhase_fault : (timerPhase e s).fault = s.fault := by
  rcases timerPhase_cases e s with ⟨_, h⟩ | ⟨_, _, h⟩ | ⟨_, _, h⟩ <;> rw [h] <;> rfl

@[simp] theorem timerPhase_elapsedQueue : (timerPhase e s).elapsedQueue = s.elapsedQueue := by
  rcases timerPhase_cases e s with ⟨_, h⟩ | ⟨_, _, h⟩ | ⟨_, _, h⟩ <;> rw [h] <;> rfl

@[simp] theorem timerPhase_freeCount : (timerPhase e s).freeCount = s.freeCount := by
  rcases timerPhase_cases e s with ⟨_, h⟩ | ⟨_, _, h⟩ | ⟨_, _, h⟩ <;> rw [h] <;> rfl

@[simp] theorem getV_timerPhase (x : RegIdx) : (timerPhase e s).getV x = s.getV x := by simp [State.getV]

@[simp] theorem byteAt_timerPhase (a : Nat) : (timerPhase e s).byteAt a = s.byteAt a := by simp [State.byteAt]

/-- The timer phase keeps the range of the accumulator (R26). -/
theorem timerPhase_timerOk {s : State} (h : s.TimerOk) : (timerPhase e s).TimerOk := by
  have hp := timerPeriod_pos
  obtain ⟨h0, h1, h2⟩ := h
  have hacc : 0 ≤ s.dtAcc + millisValue e := add_nonneg h0 (millisValue_nonneg e)
  rcases timerPhase_cases e s with ⟨_, hs⟩ | ⟨_, _, hs⟩ | ⟨_, hlt, hs⟩ <;> rw [hs]
  · exact ⟨h0, h1, h2⟩
  · exact ⟨le_refl _, hp, fun _ => rfl⟩
  · obtain ⟨ha, hb⟩ := wholeTicks_spec hacc
    refine ⟨by simpa using ha, by simp only [State.setTimer_dtAcc]; linarith, fun hz => ?_⟩
    exfalso
    have hlt' := s.dt.isLt
    have : (s.dt - BitVec.ofNat 8 (wholeTicks (s.dtAcc + millisValue e))).toNat = 0 := by
      rw [State.setTimer_dt] at hz; rw [hz]; rfl
    rw [BitVec.toNat_sub, BitVec.toNat_ofNat] at this
    omega

end Sys2Proof.Machine
end

