-- ==== Sys2Proof/Laws/Exec.lean ====
section
/-! SUPPORT. What the meanings that may raise a fault can do, said once each, and what every meaning does to the fault latch. -/

namespace Sys2Proof.Machine

variable (s : State)

/-! ### CALL and RTS (R126, R127) -/

theorem callSub_ok (nnn : Addr) (h : s.sp.toNat + 2 ≤ maxStack.toNat) :
    callSub nnn s = .ok (((s.setMem (Memory.storeBytes s.mem s.sp.toNat [hiByte s.pc, loByte s.pc])).setSp
      (s.sp + 2#16)).setPc (addrOperand nnn)) := by
  have hm : s.sp.toNat + 1 < Config.memSize := by
    have : maxStack.toNat = 3839 := rfl
    have : Config.memSize = 4096 := rfl
    omega
  rw [callSub, if_neg (by omega), s.memWrite16_ok hm]

theorem callSub_error (nnn : Addr) (h : maxStack.toNat < s.sp.toNat + 2) :
    callSub nnn s = .error (.stackOverflow s.sp s.pc) := if_pos h

/-- With SP in its window the popped slot is the window's bottom slot or the one below SP. -/
theorem popSlot_toNat {s : State} (h : s.StackOk) :
    (popSlot s).toNat = if s.sp = minStack then minStack.toNat else s.sp.toNat - 2 := by
  obtain ⟨h1, h2, _⟩ := h
  have hmin : minStack.toNat = 3744 := rfl
  have hmax : maxStack.toNat = 3839 := rfl
  unfold popSlot
  by_cases e : s.sp = minStack
  · simp [e]
  · have hne : s.sp.toNat ≠ minStack.toNat := fun h => e (BitVec.eq_of_toNat_eq h)
    rw [if_pos (by omega), if_neg e, BitVec.toNat_sub]
    simp
    omega

/-- With SP in its window the popped slot lies in the window, at an even address. -/
theorem popSlot_bounds {s : State} (h : s.StackOk) :
    minStack.toNat ≤ (popSlot s).toNat ∧ (popSlot s).toNat + 1 ≤ maxStack.toNat ∧ (popSlot s).toNat % 2 = 0 := by
  have hmin : minStack.toNat = 3744 := rfl
  have hmax : maxStack.toNat = 3839 := rfl
  rw [popSlot_toNat h]
  obtain ⟨h1, h2, h3⟩ := h
  split
  · omega
  · next e =>
    have hne : s.sp.toNat ≠ minStack.toNat := fun h => e (BitVec.eq_of_toNat_eq h)
    omega

theorem popSlot_in_memory {s : State} (h : s.StackOk) : (popSlot s).toNat + 1 < Config.memSize := by
  have := popSlot_bounds h
  have : maxStack.toNat = 3839 := rfl
  have : Config.memSize = 4096 := rfl
  omega

theorem returnSub_finish (hm : (popSlot s).toNat + 1 < Config.memSize)
    (h : popSlot s = minStack ∧ s.wordAt (popSlot s).toNat = 0#16) :
    returnSub s = .ok (s.setFinished.setSp (popSlot s)) := by
  rw [returnSub, s.memRead16_ok hm]
  simp only [if_pos h]

theorem returnSub_return (hm : (popSlot s).toNat + 1 < Config.memSize)
    (h : ¬ (popSlot s = minStack ∧ s.wordAt (popSlot s).toNat = 0#16)) :
    returnSub s = .ok (((s.setMem (Memory.storeBytes s.mem (popSlot s).toNat [0#8, 0#8])).setSp (popSlot s)).setPc
      (s.wordAt (popSlot s).toNat + 2#16)) := by
  rw [returnSub, s.memRead16_ok hm]
  simp only [if_neg h, s.memWrite16_ok hm]
  rfl

theorem returnSub_error (hm : Config.memSize ≤ (popSlot s).toNat + 1) :
    returnSub s = .error (.addressOutOfRange (max (popSlot s).toNat Config.memSize)) := by
  rw [returnSub, s.memRead16_error hm]

/-! ### Transfers through I (R191, R232 to R234) -/

theorem storeAtIndex_ok {bytes : List Byte} (h : bytes = [] ∨ s.i.toNat + bytes.length ≤ Config.memSize) :
    storeAtIndex s bytes = .ok (s.setMem (Memory.storeBytes s.mem s.i.toNat bytes)).advance := by
  rw [storeAtIndex, s.indexAddr_zero, s.writeBytes_ok bytes _ h]

theorem storeAtIndex_error {bytes : List Byte} (hb : bytes ≠ []) (h : Config.memSize < s.i.toNat + bytes.length) :
    storeAtIndex s bytes = .error (.addressOutOfRange (max s.i.toNat Config.memSize)) := by
  rw [storeAtIndex, s.indexAddr_zero, s.writeBytes_error bytes _ hb h]

theorem loadFromIndex_ok (x : RegIdx) (h : s.i.toNat + (x.toNat + 1) ≤ Config.memSize) :
    loadFromIndex x s =
      .ok (s.loadRegs 0 ((List.range (x.toNat + 1)).map fun k => s.byteAt (s.i.toNat + k))).advance := by
  rw [loadFromIndex, s.indexAddr_zero, s.readBytes_ok _ _ (.inr h)]

theorem loadFromIndex_error (x : RegIdx) (h : Config.memSize < s.i.toNat + (x.toNat + 1)) :
    loadFromIndex x s = .error (.addressOutOfRange (max s.i.toNat Config.memSize)) := by
  rw [loadFromIndex, s.indexAddr_zero, s.readBytes_error _ _ (by omega) h]

/-- The sprite DRAW reads: `n` bytes from I on. -/
def spriteOf (s : State) (n : Nibble) : List Byte := (List.range n.toNat).map fun k => s.byteAt (s.i.toNat + k)

theorem drawSprite_ok (x y : RegIdx) (n : Nibble) (h : n = 0#4 ∨ s.i.toNat + n.toNat ≤ Config.memSize) :
    drawSprite x y n s =
      .ok (((s.setFb (blitRows (spriteOf s n) (s.getV x).toNat (s.getV y).toNat (s.fb, false)).1).setV VF
        (collisionFlag (blitRows (spriteOf s n) (s.getV x).toNat (s.getV y).toNat (s.fb, false)).2)).setFbu true).advance := by
  rw [drawSprite, s.indexAddr_zero, s.readBytes_ok _ _ (h.imp_left fun e => by rw [e]; rfl)]
  rfl

theorem drawSprite_error (x y : RegIdx) (n : Nibble) (hn : n ≠ 0#4) (h : Config.memSize < s.i.toNat + n.toNat) :
    drawSprite x y n s = .error (.addressOutOfRange (max s.i.toNat Config.memSize)) := by
  have : n.toNat ≠ 0 := fun e => hn (BitVec.eq_of_toNat_eq e)
  rw [drawSprite, s.indexAddr_zero, s.readBytes_error _ _ this h]

/-! ### RAND (R181) -/

theorem randomByte_cases :
    (∃ seed, s.rngSeed = some seed ∧ randomByte s = (generator seed s.rngCount, s.countRand)) ∨
    (s.rngSeed = none ∧ randomByte s = (Config.freeByte s.freeCount, s.countRand.countFree)) := by
  unfold randomByte
  cases s.rngSeed with
  | none => exact .inr ⟨rfl, rfl⟩
  | some seed => exact .inl ⟨seed, rfl, rfl⟩

/-! ### The fault latch -/

/-- The operations that may raise a fault leave the latch alone when they do not. -/
theorem callSub_fault {nnn : Addr} {s t : State} (h : callSub nnn s = .ok t) : t.fault = s.fault := by
  by_cases hc : s.sp.toNat + 2 ≤ maxStack.toNat
  · rw [callSub_ok s nnn hc] at h; cases h; rfl
  · rw [callSub_error s nnn (by omega)] at h; cases h

theorem returnSub_fault {s t : State} (h : returnSub s = .ok t) : t.fault = s.fault := by
  by_cases hm : (popSlot s).toNat + 1 < Config.memSize
  · by_cases hc : popSlot s = minStack ∧ s.wordAt (popSlot s).toNat = 0#16
    · rw [returnSub_finish s hm hc] at h; cases h; rfl
    · rw [returnSub_return s hm hc] at h; cases h; rfl
  · rw [returnSub_error s (by omega)] at h; cases h

theorem storeAtIndex_fault {bytes : List Byte} {s t : State} (h : storeAtIndex s bytes = .ok t) : t.fault = s.fault := by
  by_cases hc : bytes = [] ∨ s.i.toNat + bytes.length ≤ Config.memSize
  · rw [storeAtIndex_ok s hc] at h; cases h; rfl
  · rw [not_or] at hc; rw [storeAtIndex_error s hc.1 (by omega)] at h; cases h

theorem loadFromIndex_fault {x : RegIdx} {s t : State} (h : loadFromIndex x s = .ok t) : t.fault = s.fault := by
  by_cases hc : s.i.toNat + (x.toNat + 1) ≤ Config.memSize
  · rw [loadFromIndex_ok s x hc] at h; cases h; simp
  · rw [loadFromIndex_error s x (by omega)] at h; cases h

theorem drawSprite_fault {x y : RegIdx} {n : Nibble} {s t : State} (h : drawSprite x y n s = .ok t) :
    t.fault = s.fault := by
  by_cases hc : n = 0#4 ∨ s.i.toNat + n.toNat ≤ Config.memSize
  · rw [drawSprite_ok s x y n hc] at h; cases h; rfl
  · rw [not_or] at hc; rw [drawSprite_error s x y n hc.1 (by omega)] at h; cases h

theorem randomByte_fault : (randomByte s).2.fault = s.fault := by
  rcases randomByte_cases s with ⟨_, _, h⟩ | ⟨_, h⟩ <;> rw [h] <;> rfl

/-- How an instruction that may raise a fault ends. -/
theorem complete_fault {s t : State} {r : Attempt State} (hr : ∀ u, r = .ok u → u.fault = s.fault)
    (h : complete s r = .next t) : t.fault = s.fault ∨ ∃ f, t = s.raise f := by
  rcases complete_cases s r with ⟨u, hu, hc⟩ | ⟨f, _, hc⟩ <;> rw [hc] at h <;> cases h
  · exact .inl (hr _ hu)
  · exact .inr ⟨f, rfl⟩

/-- How every instruction ends: with the latch as it was, or with a fault taken in the state it began in. -/
theorem exec_fault {i : Instr} {s t : State} (h : exec i s = .next t) : t.fault = s.fault ∨ ∃ f, t = s.raise f := by
  cases i
  case call nnn => exact complete_fault (fun _ => callSub_fault) h
  case rts => exact complete_fault (fun _ => returnSub_fault) h
  case bcd x => exact complete_fault (fun _ => storeAtIndex_fault) h
  case stor x => exact complete_fault (fun _ => storeAtIndex_fault) h
  case read x => exact complete_fault (fun _ => loadFromIndex_fault) h
  case draw x y n => exact complete_fault (fun _ => drawSprite_fault) h
  case rand x nn => cases h; exact .inl (randomByte_fault s)
  case ske x nn => cases h; exact .inl (by simp)
  case skne x nn => cases h; exact .inl (by simp)
  case skre x y => cases h; exact .inl (by simp)
  case skrne x y => cases h; exact .inl (by simp)
  all_goals (cases h; exact .inl rfl)

end Sys2Proof.Machine
end

