-- ==== Sys2Proof/Laws/PerInstr.lean ====
section
/-! SUPPORT. Statements about every instruction as syntax, one lemma per constructor. Family EncodeMatchesRow: the encoded word carries the
fixed bits of the instruction's own row (R103: `encode(r, operands) & r.mask = r.match`). -/

namespace Sys2Proof.Laws.EncodeMatchesRow

/-- The encoded word matches the row of the instruction's mnemonic. -/
def Statement (i : Instr) : Prop := (rowOf i.mnemonic).matches (encode i) = true

theorem clr : Statement .clr := by unfold Statement; decide
theorem rts : Statement .rts := by unfold Statement; decide
theorem jump (nnn : Addr) : Statement (.jump nnn) := by simp [Statement, Instr.mnemonic, Instr.toTerm, Row.matches, rowOf, encode, encFA, or_and_distrib]
theorem call (nnn : Addr) : Statement (.call nnn) := by simp [Statement, Instr.mnemonic, Instr.toTerm, Row.matches, rowOf, encode, encFA, or_and_distrib]
theorem ske (x : RegIdx) (nn : Byte) : Statement (.ske x nn) := by simp [Statement, Instr.mnemonic, Instr.toTerm, Row.matches, rowOf, encode, encFXB, or_and_distrib]
theorem skne (x : RegIdx) (nn : Byte) : Statement (.skne x nn) := by simp [Statement, Instr.mnemonic, Instr.toTerm, Row.matches, rowOf, encode, encFXB, or_and_distrib]
theorem skre (x : RegIdx) (y : RegIdx) : Statement (.skre x y) := by simp [Statement, Instr.mnemonic, Instr.toTerm, Row.matches, rowOf, encode, encFXY, or_and_distrib]
theorem load (x : RegIdx) (nn : Byte) : Statement (.load x nn) := by simp [Statement, Instr.mnemonic, Instr.toTerm, Row.matches, rowOf, encode, encFXB, or_and_distrib]
theorem addb (x : RegIdx) (nn : Byte) : Statement (.addb x nn) := by simp [Statement, Instr.mnemonic, Instr.toTerm, Row.matches, rowOf, encode, encFXB, or_and_distrib]
theorem move (x : RegIdx) (y : RegIdx) : Statement (.move x y) := by simp [Statement, Instr.mnemonic, Instr.toTerm, Row.matches, rowOf, encode, encFXY, or_and_distrib]
theorem or (x : RegIdx) (y : RegIdx) : Statement (.or x y) := by simp [Statement, Instr.mnemonic, Instr.toTerm, Row.matches, rowOf, encode, encFXY, or_and_distrib]
theorem and (x : RegIdx) (y : RegIdx) : Statement (.and x y) := by simp [Statement, Instr.mnemonic, Instr.toTerm, Row.matches, rowOf, encode, encFXY, or_and_distrib]
theorem xor (x : RegIdx) (y : RegIdx) : Statement (.xor x y) := by simp [Statement, Instr.mnemonic, Instr.toTerm, Row.matches, rowOf, encode, encFXY, or_and_distrib]
theorem add (x : RegIdx) (y : RegIdx) : Statement (.add x y) := by simp [Statement, Instr.mnemonic, Instr.toTerm, Row.matches, rowOf, encode, encFXY, or_and_distrib]
theorem sub (x : RegIdx) (y : RegIdx) : Statement (.sub x y) := by simp [Statement, Instr.mnemonic, Instr.toTerm, Row.matches, rowOf, encode, encFXY, or_and_distrib]
theorem shr (x : RegIdx) (y : RegIdx) : Statement (.shr x y) := by simp [Statement, Instr.mnemonic, Instr.toTerm, Row.matches, rowOf, encode, encFXY, or_and_distrib]
theorem subn (x : RegIdx) (y : RegIdx) : Statement (.subn x y) := by simp [Statement, Instr.mnemonic, Instr.toTerm, Row.matches, rowOf, encode, encFXY, or_and_distrib]
theorem shl (x : RegIdx) (y : RegIdx) : Statement (.shl x y) := by simp [Statement, Instr.mnemonic, Instr.toTerm, Row.matches, rowOf, encode, encFXY, or_and_distrib]
theorem skrne (x : RegIdx) (y : RegIdx) : Statement (.skrne x y) := by simp [Statement, Instr.mnemonic, Instr.toTerm, Row.matches, rowOf, encode, encFXY, or_and_distrib]
theorem loadi (nnn : Addr) : Statement (.loadi nnn) := by simp [Statement, Instr.mnemonic, Instr.toTerm, Row.matches, rowOf, encode, encFA, or_and_distrib]
theorem jumpi (nnn : Addr) : Statement (.jumpi nnn) := by simp [Statement, Instr.mnemonic, Instr.toTerm, Row.matches, rowOf, encode, encFA, or_and_distrib]
theorem rand (x : RegIdx) (nn : Byte) : Statement (.rand x nn) := by simp [Statement, Instr.mnemonic, Instr.toTerm, Row.matches, rowOf, encode, encFXB, or_and_distrib]
theorem draw (x : RegIdx) (y : RegIdx) (n : Nibble) : Statement (.draw x y n) := by simp [Statement, Instr.mnemonic, Instr.toTerm, Row.matches, rowOf, encode, encFXYN, or_and_distrib]
theorem skpr (x : RegIdx) : Statement (.skpr x) := by simp [Statement, Instr.mnemonic, Instr.toTerm, Row.matches, rowOf, encode, encFX, or_and_distrib]
theorem skup (x : RegIdx) : Statement (.skup x) := by simp [Statement, Instr.mnemonic, Instr.toTerm, Row.matches, rowOf, encode, encFX, or_and_distrib]
theorem moved (x : RegIdx) : Statement (.moved x) := by simp [Statement, Instr.mnemonic, Instr.toTerm, Row.matches, rowOf, encode, encFX, or_and_distrib]
theorem keyd (x : RegIdx) : Statement (.keyd x) := by simp [Statement, Instr.mnemonic, Instr.toTerm, Row.matches, rowOf, encode, encFX, or_and_distrib]
theorem loadd (x : RegIdx) : Statement (.loadd x) := by simp [Statement, Instr.mnemonic, Instr.toTerm, Row.matches, rowOf, encode, encFX, or_and_distrib]
theorem loads (x : RegIdx) : Statement (.loads x) := by simp [Statement, Instr.mnemonic, Instr.toTerm, Row.matches, rowOf, encode, encFX, or_and_distrib]
theorem addi (x : RegIdx) : Statement (.addi x) := by simp [Statement, Instr.mnemonic, Instr.toTerm, Row.matches, rowOf, encode, encFX, or_and_distrib]
theorem ldspr (x : RegIdx) : Statement (.ldspr x) := by simp [Statement, Instr.mnemonic, Instr.toTerm, Row.matches, rowOf, encode, encFX, or_and_distrib]
theorem bcd (x : RegIdx) : Statement (.bcd x) := by simp [Statement, Instr.mnemonic, Instr.toTerm, Row.matches, rowOf, encode, encFX, or_and_distrib]
theorem stor (x : RegIdx) : Statement (.stor x) := by simp [Statement, Instr.mnemonic, Instr.toTerm, Row.matches, rowOf, encode, encFX, or_and_distrib]
theorem read (x : RegIdx) : Statement (.read x) := by simp [Statement, Instr.mnemonic, Instr.toTerm, Row.matches, rowOf, encode, encFX, or_and_distrib]

end Sys2Proof.Laws.EncodeMatchesRow
end

