-- ==== Sys2Proof/Tests/Slice0.lean ====
section
/-! SUPPORT. Tests. Expected results are the vectors of spec/95_test_vectors.md, named in each comment, or words written out from
spec/30_encoding.md R96. The `witness_` theorems show a state and operands that meet the hypotheses of the statement they name, clause by
clause. -/

open Sys2Proof Sys2Proof.Machine

namespace Sys2Proof.Tests

/-! ### Well-formedness: each check refuses an ill-formed term -/

theorem test_wf_accepts : Term.wellFormed ⟨.draw, [15, 15, 15]⟩ = true := by decide
theorem test_wf_refuses_missing_operand : Term.wellFormed ⟨.load, [1]⟩ = false := by decide
theorem test_wf_refuses_extra_operand : Term.wellFormed ⟨.rts, [1]⟩ = false := by decide
theorem test_wf_refuses_register : Term.wellFormed ⟨.load, [16, 0]⟩ = false := by decide
theorem test_wf_refuses_byte : Term.wellFormed ⟨.load, [1, 256]⟩ = false := by decide
theorem test_wf_refuses_nibble : Term.wellFormed ⟨.draw, [1, 2, 16]⟩ = false := by decide
theorem test_wf_refuses_address : Term.wellFormed ⟨.jump, [4096]⟩ = false := by decide

/-! ### Decoding: one word of every row, from the table at the end of V-ASM (X = 3, Y = 4, NN = 7F, N = 5, NNN = ABC) -/

theorem test_decode_control : decode 0x00EE#16 = .ok .rts ∧ decode 0x1ABC#16 = .ok (.jump 0xABC#12) ∧
    decode 0x2ABC#16 = .ok (.call 0xABC#12) ∧ decode 0xBABC#16 = .ok (.jumpi 0xABC#12) := by decide

theorem test_decode_skips : decode 0x337F#16 = .ok (.ske 3#4 0x7F#8) ∧ decode 0x437F#16 = .ok (.skne 3#4 0x7F#8) ∧
    decode 0x5340#16 = .ok (.skre 3#4 4#4) ∧ decode 0x9340#16 = .ok (.skrne 3#4 4#4) := by decide

theorem test_decode_load_logic : decode 0x637F#16 = .ok (.load 3#4 0x7F#8) ∧ decode 0x737F#16 = .ok (.addb 3#4 0x7F#8) ∧
    decode 0x8340#16 = .ok (.move 3#4 4#4) ∧ decode 0x8341#16 = .ok (.or 3#4 4#4) ∧
    decode 0x8342#16 = .ok (.and 3#4 4#4) ∧ decode 0x8343#16 = .ok (.xor 3#4 4#4) := by decide

theorem test_decode_arithmetic : decode 0x8344#16 = .ok (.add 3#4 4#4) ∧ decode 0x8345#16 = .ok (.sub 3#4 4#4) ∧
    decode 0x8346#16 = .ok (.shr 3#4 4#4) ∧ decode 0x8347#16 = .ok (.subn 3#4 4#4) ∧
    decode 0x834E#16 = .ok (.shl 3#4 4#4) := by decide

theorem test_decode_random_display : decode 0xC37F#16 = .ok (.rand 3#4 0x7F#8) ∧ decode 0x00E0#16 = .ok .clr ∧
    decode 0xD345#16 = .ok (.draw 3#4 4#4 5#4) ∧ decode 0xF329#16 = .ok (.ldspr 3#4) := by decide

theorem test_decode_timer_index : decode 0xF307#16 = .ok (.moved 3#4) ∧ decode 0xF315#16 = .ok (.loadd 3#4) ∧
    decode 0xAABC#16 = .ok (.loadi 0xABC#12) ∧ decode 0xF31E#16 = .ok (.addi 3#4) ∧
    decode 0xF333#16 = .ok (.bcd 3#4) ∧ decode 0xF355#16 = .ok (.stor 3#4) ∧ decode 0xF365#16 = .ok (.read 3#4) := by decide

theorem test_decode_stubs : decode 0xE39E#16 = .ok (.skpr 3#4) ∧ decode 0xE3A1#16 = .ok (.skup 3#4) ∧
    decode 0xF30A#16 = .ok (.keyd 3#4) ∧ decode 0xF318#16 = .ok (.loads 3#4) := by decide

/-- V-STEP-2 to V-STEP-6: illegal opcodes. -/
theorem test_decode_illegal : decode 0x5121#16 = .error (.unmatched 0x5121#16) ∧
    decode 0x8128#16 = .error (.unmatched 0x8128#16) ∧ decode 0xE100#16 = .error (.unmatched 0xE100#16) ∧
    decode 0xF1FF#16 = .error (.unmatched 0xF1FF#16) ∧ decode 0x0123#16 = .error (.unmatched 0x0123#16) := by decide

theorem test_decode_bytes : decodeBytes [0x6A#8, 0x6E#8, 0x12#8] = .ok (.load 0xA#4 0x6E#8, [0x12#8]) ∧
    decodeBytes [0x6A#8] = .error .truncated := by decide

theorem test_decode_table_word : decodeTableWord 16 0xDA6E = some (.draw 0xA#4 6#4 0xE#4) ∧
    decodeTableWord 16 0x5121 = none := by decide

/-- S2, S3: the two bytes in memory order. -/
theorem test_encode_bytes : encodeBytes (.load 0xA#4 0x6E#8) = [0x6A#8, 0x6E#8] ∧
    encodeBytes (.draw 0xA#4 6#4 0xE#4) = [0xDA#8, 0x6E#8] := by decide

/-! ### Helpers -/

/-- After `reset(123)`. -/
def seeded : State := State.resetWith (some 123)

/-- After `reset(123)`, with bytes stored at an address. -/
def holding (a : Nat) (bytes : List Byte) : State := seeded.setMem (Memory.storeBytes [] a bytes)

/-- What a reading of the next state gives, if there is a next state. -/
def got {α : Type} (f : State → α) : Outcome → Option α
  | .next t => some (f t)
  | .fault _ => none
  | .refused _ => none

/-- A frame buffer with these pixels set. -/
def drawn (points : List (Nat × Nat)) : FrameBuffer := points.foldl (fun fb p => fb.flip p.1 p.2) FrameBuffer.clear

/-! ### Control transfer -/

/-- V-JUMP-1. -/
theorem test_jump : got (·.pc) (exec (.jump 0x206#12) seeded) = some 0x206#16 := by decide

/-- V-CALL-2: the last level that fits. -/
theorem test_call_last_level :
    got (fun t => (t.byteAt 0xEFC, t.byteAt 0xEFD, t.sp, t.pc))
      (exec (.call 0x20A#12) ((seeded.setPc 0x204#16).setSp 0xEFC#16)) =
    some (0x02#8, 0x04#8, 0xEFE#16, 0x20A#16) := by decide

/-- V-CALL-3. -/
theorem test_call_overflow :
    got (fun t => (t.fault, t.sp, t.pc, t.mem)) (exec (.call 0x20A#12) ((seeded.setPc 0x204#16).setSp 0xEFE#16)) =
    some (some (.stackOverflow 0xEFE#16 0x204#16), 0xEFE#16, 0x204#16, []) := by decide

/-- V-RTS-2. -/
theorem test_rts_finishes :
    got (fun t => (t.finished, t.sp, t.pc)) (exec .rts (seeded.setPc 0x208#16)) =
    some (true, 0xEA0#16, 0x208#16) := by decide

/-- V-RTS-5: a zero entry above the bottom slot is a return address. -/
theorem test_rts_zero_entry :
    got (fun t => (t.pc, t.sp, t.finished, t.mem)) (exec .rts ((holding 0xEA0 [2#8]).setSp 0xEA4#16)) =
    some (0x002#16, 0xEA2#16, false, [(0xEA0, 2#8)]) := by decide

/-- V-JUMPI-2. -/
theorem test_jumpi : got (·.pc) (exec (.jumpi 0xFFF#12) (seeded.setV 0#4 0xFF#8)) = some 0x10FE#16 := by decide

/-! ### Skips -/

/-- V-SK-1, V-SK-2. -/
theorem test_ske : got (·.pc) (exec (.ske 1#4 0#8) (seeded.setPc 0x20A#16)) = some 0x20E#16 ∧
    got (·.pc) (exec (.ske 1#4 0#8) ((seeded.setPc 0x20A#16).setV 1#4 1#8)) = some 0x20C#16 := by decide

/-- V-SK-4, V-SK-5. -/
theorem test_skne : got (·.pc) (exec (.skne 2#4 6#8) ((seeded.setPc 0x300#16).setV 2#4 5#8)) = some 0x304#16 ∧
    got (·.pc) (exec (.skne 2#4 5#8) ((seeded.setPc 0x300#16).setV 2#4 5#8)) = some 0x302#16 := by decide

/-- V-SK-6, V-SK-7. -/
theorem test_skre :
    got (·.pc) (exec (.skre 3#4 4#4) (((seeded.setPc 0x210#16).setV 3#4 9#8).setV 4#4 9#8)) = some 0x214#16 ∧
    got (·.pc) (exec (.skre 3#4 4#4) (((seeded.setPc 0x210#16).setV 3#4 9#8).setV 4#4 10#8)) = some 0x212#16 := by decide

/-- V-SK-9, V-SK-10. -/
theorem test_skrne :
    got (·.pc) (exec (.skrne 3#4 4#4) (((seeded.setPc 0x210#16).setV 3#4 9#8).setV 4#4 10#8)) = some 0x214#16 ∧
    got (·.pc) (exec (.skrne 3#4 4#4) (((seeded.setPc 0x210#16).setV 3#4 9#8).setV 4#4 9#8)) = some 0x212#16 := by decide

/-! ### Load, move, logic, arithmetic, shifts: V[x] and VF after the instruction -/

/-- V-LD-1, V-LD-2. -/
theorem test_load : got (·.getV 0xA#4) (exec (.load 0xA#4 0x6E#8) seeded) = some 0x6E#8 ∧
    got (·.getV VF) (exec (.load VF 0xFE#8) (seeded.setV VF 1#8)) = some 0xFE#8 := by decide

/-- V-LD-3, V-LD-4. -/
theorem test_addb :
    got (fun t => (t.getV 1#4, t.getV VF)) (exec (.addb 1#4 3#8) ((seeded.setV 1#4 0xFE#8).setV VF 7#8)) =
      some (1#8, 7#8) ∧
    got (·.getV VF) (exec (.addb VF 1#8) (seeded.setV VF 0xFF#8)) = some 0#8 := by decide

/-- V-LD-6. -/
theorem test_move : got (fun t => (t.getV 1#4, t.getV 2#4)) (exec (.move 1#4 2#4) (seeded.setV 2#4 0x33#8)) =
    some (0x33#8, 0x33#8) := by decide

/-- V-LOGIC-1. -/
theorem test_or : got (fun t => (t.getV 1#4, t.getV VF))
    (exec (.or 1#4 2#4) (((seeded.setV 1#4 0xF0#8).setV 2#4 0x0F#8).setV VF 9#8)) = some (0xFF#8, 9#8) := by decide

/-- V-LOGIC-2. -/
theorem test_and : got (fun t => (t.getV 1#4, t.getV VF))
    (exec (.and 1#4 2#4) (((seeded.setV 1#4 0xF3#8).setV 2#4 0x3F#8).setV VF 9#8)) = some (0x33#8, 9#8) := by decide

/-- V-LOGIC-3. -/
theorem test_xor : got (fun t => (t.getV 1#4, t.getV VF))
    (exec (.xor 1#4 2#4) (((seeded.setV 1#4 0xFF#8).setV 2#4 0x0F#8).setV VF 9#8)) = some (0xF0#8, 9#8) := by decide

/-- V-ADD-9, V-ADD-10. -/
theorem test_add_into_vf :
    got (·.getV VF) (exec (.add VF 1#4) ((seeded.setV VF 0xF0#8).setV 1#4 0x20#8)) = some 1#8 ∧
    got (·.getV VF) (exec (.add VF 1#4) ((seeded.setV VF 0x10#8).setV 1#4 0x20#8)) = some 0#8 := by decide

/-- V-ADD-11. -/
theorem test_add_of_vf : got (fun t => (t.getV 0#4, t.getV VF))
    (exec (.add 0#4 VF) ((seeded.setV 0#4 0xFF#8).setV VF 1#8)) = some (0#8, 1#8) := by decide

/-- V-SUB-2, V-SUB-3: operands V1, V2. -/
theorem test_sub :
    got (fun t => (t.getV 1#4, t.getV VF)) (exec (.sub 1#4 2#4) ((seeded.setV 1#4 3#8).setV 2#4 5#8)) =
      some (0xFE#8, 0#8) ∧
    got (fun t => (t.getV 1#4, t.getV VF)) (exec (.sub 1#4 2#4) ((seeded.setV 1#4 7#8).setV 2#4 7#8)) =
      some (0#8, 1#8) := by decide

/-- V-SUB-13. -/
theorem test_sub_of_vf : got (fun t => (t.getV 1#4, t.getV VF))
    (exec (.sub 1#4 VF) ((seeded.setV 1#4 3#8).setV VF 5#8)) = some (0xFE#8, 0#8) := by decide

/-- V-SUBN-1, V-SUBN-2: operands V1, V2. -/
theorem test_subn :
    got (fun t => (t.getV 1#4, t.getV VF)) (exec (.subn 1#4 2#4) ((seeded.setV 1#4 3#8).setV 2#4 5#8)) =
      some (2#8, 1#8) ∧
    got (fun t => (t.getV 1#4, t.getV VF)) (exec (.subn 1#4 2#4) ((seeded.setV 1#4 5#8).setV 2#4 3#8)) =
      some (0xFE#8, 0#8) := by decide

/-- V-SHR-12: the old V1 is no input. -/
theorem test_shr : got (fun t => (t.getV 1#4, t.getV 2#4, t.getV VF))
    (exec (.shr 1#4 2#4) ((seeded.setV 1#4 0xAA#8).setV 2#4 5#8)) = some (2#8, 5#8, 1#8) := by decide

/-- V-SHR-11: VF as source and destination. -/
theorem test_shr_vf : got (·.getV VF) (exec (.shr VF VF) (seeded.setV VF 3#8)) = some 1#8 ∧
    got (·.getV VF) (exec (.shr VF VF) (seeded.setV VF 2#8)) = some 0#8 := by decide

/-- V-SHL-7. -/
theorem test_shl : got (fun t => (t.getV 1#4, t.getV VF)) (exec (.shl 1#4 1#4) (seeded.setV 1#4 0xC0#8)) =
    some (0x80#8, 1#8) := by decide

/-- V-SHL-9, V-SHL-10. -/
theorem test_shl_vf :
    got (fun t => (t.getV 1#4, t.getV VF)) (exec (.shl 1#4 VF) (seeded.setV VF 0x81#8)) = some (2#8, 1#8) ∧
    got (·.getV VF) (exec (.shl VF VF) (seeded.setV VF 0x40#8)) = some 0#8 := by decide

/-! ### Random -/

/-- V-RAND-3. -/
theorem test_rand_mask : got (fun t => (t.getV 0#4, t.rngCount)) (exec (.rand 0#4 0xFE#8) seeded) = some (2#8, 1) := by
  decide

/-- V-RAND-4: a draw is consumed though the mask is 0. -/
theorem test_rand_zero_mask :
    got (fun t => (t.getV 0#4, t.rngCount)) (exec (.rand 0#4 0#8) (seeded.setV 0#4 0x55#8)) = some (0#8, 1) := by decide

/-! ### Display -/

/-- V-CLR-1. -/
theorem test_clr : got (fun t => (t.fb, t.frameBufferUpdated, t.getV VF))
    (exec .clr ((seeded.setFb (drawn [(0, 0), (63, 31), (5, 7)])).setV VF 9#8)) = some (FrameBuffer.clear, true, 9#8) := by
  decide +kernel

/-- V-DRAW-1: columns past 63 and rows past 31 are skipped. -/
theorem test_draw_clips : got (fun t => (t.fb, t.getV VF, t.frameBufferUpdated, t.i))
    (exec (.draw 1#4 2#4 3#4) ((((holding 0x20C [0xC0#8, 0xA0#8, 0xFF#8]).setI 0x20C#16).setV 1#4 62#8).setV 2#4 30#8)) =
    some (drawn [(62, 30), (63, 30), (62, 31)], 0#8, true, 0x20C#16) := by decide +kernel

/-- V-DRAW-7: XOR and collision. -/
theorem test_draw_collides : got (fun t => (t.fb, t.getV VF))
    (exec (.draw 1#4 2#4 1#4)
      (((((holding 0x300 [0xA0#8]).setI 0x300#16).setV 1#4 8#8).setV 2#4 4#8).setFb (drawn [(8, 4), (9, 4)]))) =
    some (drawn [(9, 4), (10, 4)], 1#8) := by decide +kernel

/-- V-LDSPR-2, V-LDSPR-4. -/
theorem test_ldspr : got (·.i) (exec (.ldspr 0#4) (seeded.setV 0#4 0x0F#8)) = some 0x04B#16 ∧
    got (·.i) (exec (.ldspr 0#4) (seeded.setV 0#4 0x1A#8)) = some 0x032#16 := by decide

/-- R28 (D26): pixel (x, y) is element 64*y + x of what the host reads. -/
theorem test_pixel_order : ((seeded.setFb (drawn [(3, 1)])).readFrameBuffer)[67]? = some true := by decide +kernel

/-! ### Timer -/

/-- V-TIMER-6: n = 60, DT = 140, DTacc = 4.0, V1 = 8C. -/
theorem test_moved_after_decay : got (fun t => (t.dt, t.dtAcc, t.getV 1#4))
    (stepWith ⟨1000, 0⟩ ((holding 0x200 [0xF1#8, 0x07#8]).setTimer 200#8 0)) = some (140#8, 4, 0x8C#8) := by decide +kernel

/-- V-TIMER-3, V-TIMER-4: 16.6 ms is a period, 16.59 ms is not. -/
theorem test_timer_period : (timerPhase ⟨166, 9⟩ (seeded.setTimer 3#8 0)).dt = 2#8 ∧
    (timerPhase ⟨1659, 99⟩ (seeded.setTimer 3#8 0)).dt = 3#8 := by decide +kernel

/-- V-TIMER-12: this step's time does not decay the value loaded. -/
theorem test_loadd : got (fun t => (t.dt, t.dtAcc))
    (stepWith ⟨100, 0⟩ (((holding 0x200 [0xF0#8, 0x15#8]).setV 0#4 7#8).setTimer 2#8 0)) = some (7#8, 0) := by decide +kernel

/-! ### Index register and memory -/

/-- V-IDX-1. -/
theorem test_loadi : got (·.i) (exec (.loadi 0x20C#12) seeded) = some 0x20C#16 := by decide

/-- V-IDX-3, V-IDX-4. -/
theorem test_addi :
    got (fun t => (t.i, t.getV VF)) (exec (.addi 1#4) (((seeded.setI 0xFFE#16).setV 1#4 5#8).setV VF 9#8)) =
      some (0x1003#16, 9#8) ∧
    got (·.i) (exec (.addi 1#4) ((seeded.setI 0xFFFF#16).setV 1#4 2#8)) = some 1#16 := by decide

/-- V-IDX-5. -/
theorem test_bcd : got (fun t => (t.mem, t.i)) (exec (.bcd 0#4) ((seeded.setI 0x300#16).setV 0#4 0x9C#8)) =
    some ([(0x300, 1#8), (0x301, 5#8), (0x302, 6#8)], 0x300#16) := by decide

/-- V-IDX-12. -/
theorem test_bcd_past_memory : got (fun t => (t.fault, t.mem, t.pc)) (exec (.bcd 0#4) ((seeded.setI 0xFFE#16).setV 0#4 0x9C#8)) =
    some (some (.addressOutOfRange 0x1000), [], 0x200#16) := by decide

/-- V-IDX-13. -/
theorem test_stor : got (fun t => (t.mem, t.i))
    (exec (.stor 2#4) (((((seeded.setI 0x300#16).setV 0#4 0x11#8).setV 1#4 0x22#8).setV 2#4 0x33#8).setV 3#4 0x44#8)) =
    some ([(0x300, 0x11#8), (0x301, 0x22#8), (0x302, 0x33#8)], 0x300#16) := by decide

/-- V-IDX-16. -/
theorem test_stor_past_memory : got (fun t => (t.fault, t.mem))
    (exec (.stor 1#4) (((seeded.setI 0xFFF#16).setV 0#4 0x11#8).setV 1#4 0x22#8)) =
    some (some (.addressOutOfRange 0x1000), []) := by decide

/-- V-IDX-17. -/
theorem test_read : got (fun t => (t.getV 0#4, t.getV 1#4, t.getV 2#4, t.getV 3#4))
    (exec (.read 2#4) (((holding 0x300 [1#8, 5#8, 6#8, 9#8]).setI 0x300#16).setV 3#4 0x77#8)) =
    some (1#8, 5#8, 6#8, 0x77#8) := by decide

/-- V-IDX-19. -/
theorem test_read_past_memory : got (fun t => (t.fault, t.getV 0#4, t.getV 1#4))
    (exec (.read 1#4) ((((holding 0xFFF [0x5A#8]).setI 0xFFF#16).setV 0#4 1#8).setV 1#4 2#8)) =
    some (some (.addressOutOfRange 0x1000), 1#8, 2#8) := by decide

/-! ### Stubs: V-STUB-1 to V-STUB-4 -/

theorem test_skpr : got (·.pc) (exec (.skpr 1#4) (seeded.setV 1#4 5#8)) = some 0x202#16 := by decide
theorem test_skup : got (·.pc) (exec (.skup 1#4) (seeded.setV 1#4 5#8)) = some 0x202#16 := by decide
theorem test_keyd : got (fun t => (t.pc, t.getV 3#4)) (exec (.keyd 3#4) (seeded.setV 3#4 0x77#8)) = some (0x202#16, 0x77#8) := by
  decide
theorem test_loads : got (fun t => (t.pc, t.playSound, t.dt)) (exec (.loads 0#4) (seeded.setV 0#4 0x3C#8)) =
    some (0x202#16, false, 0#8) := by decide

/-! ### The step cycle and the host -/

/-- V-STEP-2, V-HOST-4: an illegal opcode. -/
theorem test_step_unknown : got (fun t => (t.fault, t.pc)) (step (holding 0x200 [0x51#8, 0x21#8])) =
    some (some (.unknownOpcode 0x5121#16 0x200#16), 0x200#16) := by decide

/-- V-STEP-7. -/
theorem test_step_fetch_past_memory : got (fun t => (t.fault, t.pc)) (step (seeded.setPc 0xFFF#16)) =
    some (some (.addressOutOfRange 0x1000), 0xFFF#16) := by decide

/-- V-STEP-11: the timer phase is rolled back. -/
theorem test_step_rollback : got (fun t => (t.fault, t.dt, t.dtAcc)) (stepWith ⟨50, 0⟩ (seeded.setTimer 5#8 0)) =
    some (some (.unknownOpcode 0#16 0x200#16), 5#8, 0) := by decide +kernel

/-- R30: a step of an instruction that is no CLR or DRAW clears `frameBufferUpdated`. -/
theorem test_step_clears_flag : got (·.frameBufferUpdated) (step ((holding 0x200 [0x60#8, 1#8]).setFbu true)) = some false := by
  decide

/-- A word placed where the step fetches is the instruction the step runs. -/
theorem test_withFetchWord : got (·.getV 0xA#4) (step (State.reset.withFetchWord 16 0x6A6E)) = some 0x6E#8 := by decide

/-- V-HOST-3. -/
theorem test_loadRom_too_large :
    (seeded.loadRom (List.replicate 3233 0xAA#8)).fault = some (.romTooLarge 3233) ∧
    (seeded.loadRom (List.replicate 3233 0xAA#8)).mem = [] := by decide +kernel

/-- V-HOST-6 and the image at 0x200. -/
theorem test_loadRom_font : (List.range 5).map (seeded.loadRom [0x60#8]).byteAt = [0xF0#8, 0x90#8, 0x90#8, 0x90#8, 0xF0#8] ∧
    (seeded.loadRom [0x60#8]).byteAt 0x4F = 0x80#8 ∧ (seeded.loadRom [0x60#8]).byteAt 0x50 = 0#8 ∧
    (seeded.loadRom [0x60#8]).byteAt 0x200 = 0x60#8 := by decide +kernel

/-! ### The assembler -/

open Assembler in
/-- V-ASM-4, V-ASM-53: case, blanks, comment, carriage returns. -/
theorem test_asm_cleaning : assembleString "Load vA , #6E ; c" = .ok [0x6A#8, 0x6E#8] ∧
    assembleString "RTS\r\nRTS\r\n" = .ok [0x00#8, 0xEE#8, 0x00#8, 0xEE#8] := by decide

open Assembler in
/-- P5: a forward and a backward reference. -/
theorem test_asm_labels : assembleString "START:\nJUMP FWD\nBACK:\nLOAD V0,1\nRTS\nFWD:\nJUMP BACK" =
    .ok [0x12#8, 0x06#8, 0x60#8, 0x01#8, 0x00#8, 0xEE#8, 0x12#8, 0x02#8] := by decide

open Assembler in
/-- V-ASM-43, V-ASM-48: data lines. -/
theorem test_asm_data : assembleString "DW #f00f" = .ok [0xF0#8, 0x0F#8] ∧ assembleString "DB $1.1....." = .ok [0xA0#8] := by
  decide

open Assembler in
/-- V-ASM-6, V-ASM-14, V-ASM-25, V-ASM-27: which operand error is reported. -/
theorem test_asm_operand_errors :
    assembleString "LOAD V1,256" = .error (.error .literalOverflow 1 "LOAD V1,256".toList) ∧
    assembleString "LOAD V1,#0FF" = .error (.error .operandFormat 1 "LOAD V1,#0FF".toList) ∧
    assembleString "LOAD V1,256,3" = .error (.error .operandCount 1 "LOAD V1,256,3".toList) ∧
    assembleString "LOAD V1," = .error (.error .syntaxError 1 "LOAD V1,".toList) := by decide

open Assembler in
/-- V-ASM-30, V-ASM-34, V-ASM-41: line numbers, a duplicate label, a label taken as a directive. -/
theorem test_asm_line_errors :
    assembleString "\nFOO" = .error (.error .unknownInstruction 2 "FOO".toList) ∧
    assembleString "A:\nA:" = .error (.error .duplicateLabel 2 "A:".toList) ∧
    assembleString "OPTIONS:\nJUMP OPTIONS" = .error (.error .unresolvedLabel 2 "JUMP OPTIONS".toList) := by decide

/-! ### Witnesses: the hypotheses of each statement are met, each clause at a boundary value -/

theorem witness_EncodeOfDecode : decode 0x8FFE#16 = .ok (.shl VF VF) := by decide

theorem witness_TermsAndInstructionsAgree :
    Term.wellFormed ⟨.draw, [15, 15, 15]⟩ = true ∧ Term.wellFormed ⟨.draw, [15, 15, 16]⟩ = false := by decide

/-- LOAD at the last address an instruction fits at; a CALL without room. -/
theorem witness_StepRunsDecodedInstruction :
    ((holding 0xFFE [0x60#8, 0x07#8]).setPc 0xFFE#16).Running ∧
    decode (wordIn ((holding 0xFFE [0x60#8, 0x07#8]).setPc 0xFFE#16) 0xFFE) = .ok (.load 0#4 7#8) ∧
    got (·.fault) (exec (.load 0#4 7#8)
      ((timerPhase ⟨0, 0⟩ ((holding 0xFFE [0x60#8, 0x07#8]).setPc 0xFFE#16)).setFbu false)) = some none ∧
    ((holding 0x200 [0x22#8, 0x00#8]).setSp 0xEFE#16).Running ∧
    decode (wordIn ((holding 0x200 [0x22#8, 0x00#8]).setSp 0xEFE#16) 0x200) = .ok (.call 0x200#12) ∧
    got (·.fault) (exec (.call 0x200#12)
      ((timerPhase ⟨0, 0⟩ ((holding 0x200 [0x22#8, 0x00#8]).setSp 0xEFE#16)).setFbu false)) =
      some (some (.stackOverflow 0xEFE#16 0x200#16)) := by
  refine ⟨⟨rfl, rfl⟩, ?_, ?_, ⟨rfl, rfl⟩, ?_, ?_⟩ <;> decide

theorem witness_StepTakesElapsedArgument :
    (seeded.setQueue [⟨10, 0⟩]).Running ∧ (seeded.setQueue [⟨10, 0⟩]).elapsedQueue = ⟨10, 0⟩ :: [] ∧
    seeded.Running ∧ seeded.elapsedQueue = [] := ⟨⟨rfl, rfl⟩, rfl, ⟨rfl, rfl⟩, rfl⟩

theorem witness_EndedStepChangesNothing :
    (seeded.raise (.addressOutOfRange 0x1000)).fault ≠ none ∧ seeded.setFinished.finished = true := by decide

theorem witness_UnknownOpcodeIsLatched :
    seeded.Running ∧ seeded.pc.toNat ≤ 0xFFE ∧ illegalWord (wordIn seeded seeded.pc.toNat) :=
  ⟨⟨rfl, rfl⟩, by decide, .inl (by decide)⟩

theorem witness_FetchAboveMemoryIsLatched : (seeded.setPc 0xFFF#16).Running ∧ (seeded.setPc 0xFFF#16).pc.toNat > 0xFFE :=
  ⟨⟨rfl, rfl⟩, by decide⟩

theorem witness_FaultLeavesEverythingElse :
    seeded.Running ∧ got (·.fault) (stepWith ⟨0, 0⟩ seeded) = some (some (.unknownOpcode 0#16 0x200#16)) :=
  ⟨⟨rfl, rfl⟩, by decide⟩

/-- Running, SP in its window, and a step that faults and one that does not. -/
theorem witness_StepFaultsExactlyWhen :
    seeded.Running ∧ seeded.StackOk ∧ got (·.fault) (stepWith ⟨0, 0⟩ seeded) ≠ some none ∧
    (holding 0x200 [0x60#8]).Running ∧ (holding 0x200 [0x60#8]).StackOk ∧
    got (·.fault) (stepWith ⟨0, 0⟩ (holding 0x200 [0x60#8])) = some none := by
  refine ⟨⟨rfl, rfl⟩, ⟨?_, ?_, ?_⟩, ?_, ⟨rfl, rfl⟩, ⟨?_, ?_, ?_⟩, ?_⟩ <;> decide

/-- The state after reset meets the invariant and steps to a next state. -/
theorem witness_StepKeepsInvariant : seeded.Inv ∧ got (·.pc) (step seeded) = some 0x200#16 :=
  ⟨⟨rfl, ⟨by decide, by decide, by decide⟩, ⟨le_refl _, timerPeriod_pos, fun _ => rfl⟩, rfl⟩, by decide⟩

theorem witness_HostRunKeepsInvariant : seeded.Inv ∧
    got (·.pc) (hostRun [.reset none, .loadRom [0x60#8, 0x01#8], .step ⟨10, 0⟩] seeded) = some 0x202#16 :=
  ⟨witness_StepKeepsInvariant.1, by decide +kernel⟩

theorem witness_StepsNeverFinishAFaultedRun : seeded.EndOk ∧ got (·.finished) (step (holding 0x200 [0x00#8, 0xEE#8])) = some true :=
  ⟨fun h => absurd rfl h, by decide⟩

theorem witness_OnlyRandAdvancesGenerator :
    got (·.rngCount) (exec (.rand 0#4 0xFF#8) seeded) = some 1 ∧ (∃ x nn, Instr.rand 0#4 0xFF#8 = .rand x nn) ∧
    got (·.rngCount) (exec .clr seeded) = some 0 ∧ ¬ (∃ x nn, Instr.clr = .rand x nn) :=
  ⟨by decide, ⟨_, _, rfl⟩, by decide, by simp⟩

theorem witness_OnlyRtsFinishes : seeded.StackOk ∧ got (·.finished) (exec .rts seeded) = some true ∧
    got (·.finished) (exec .clr seeded) = some false := ⟨⟨by decide, by decide, by decide⟩, by decide, by decide⟩

theorem witness_StateWriters : got (·.i) (exec .clr (seeded.setI 5#16)) = some 5#16 ∧
    got (·.sp) (exec (.loadd 0#4) seeded) = some 0xEA0#16 ∧ got (·.dt) (exec .clr seeded) = some 0#8 ∧
    got (·.mem) (exec (.draw 0#4 0#4 1#4) seeded) = some [] ∧ got (·.fb) (exec (.bcd 0#4) seeded) = some FrameBuffer.clear := by
  decide +kernel

/-- An instruction that is none of the flag writers and has another destination than VF. -/
theorem witness_VfWriters : got (·.getV VF) (exec (.load 0xE#4 1#8) (seeded.setV VF 9#8)) = some 9#8 ∧
    (∀ nn y, Instr.load 0xE#4 1#8 ≠ .load VF nn ∧ Instr.load 0xE#4 1#8 ≠ .move VF y) := ⟨by decide, by simp [VF]⟩

/-- Sums of 255 and of 256, a destination other than VF. -/
theorem witness_AddSetsCarry : (0#4 : RegIdx) ≠ VF ∧
    ((seeded.setV 0#4 0xFE#8).getV 0#4).toNat + ((seeded.setV 0#4 0xFE#8).getV 1#4).toNat ≤ 255 ∧
    ((seeded.setV 0#4 0x80#8).getV 0#4).toNat + ((seeded.setV 0#4 0x80#8).getV 0#4).toNat > 255 := by decide

/-- Equal operands (no borrow), and a borrow of one. -/
theorem witness_SubtractSetsNoBorrow : (0#4 : RegIdx) ≠ VF ∧ (seeded.getV 1#4).toNat ≤ (seeded.getV 0#4).toNat ∧
    ((seeded.setV 1#4 1#8).getV 0#4).toNat < ((seeded.setV 1#4 1#8).getV 1#4).toNat := by decide

theorem witness_ShiftsUseSourceRegister : (0#4 : RegIdx) ≠ VF := by decide

theorem witness_SkipsCompare : (0x5121#16).extractLsb' 12 4 = 0x5#4 ∧ fieldN 0x5121#16 ≠ 0#4 ∧
    (0x934F#16).extractLsb' 12 4 = 0x9#4 ∧ fieldN 0x934F#16 ≠ 0#4 ∧ seeded.getV 0#4 = 0#8 ∧ seeded.getV 0#4 ≠ 1#8 ∧ seeded.getV 0#4 = seeded.getV 1#4 ∧
    (seeded.setV 1#4 1#8).getV 0#4 ≠ (seeded.setV 1#4 1#8).getV 1#4 := by decide

/-- The highest SP the test admits. -/
theorem witness_CallPushesItsAddress :
    (seeded.setSp 0xEFD#16).MemOk ∧ (seeded.setSp 0xEFD#16).sp.toNat + 2 ≤ maxStack.toNat := ⟨rfl, by decide⟩

theorem witness_CallOverflowIsLatched : (seeded.setSp 0xEFE#16).sp.toNat + 2 > maxStack.toNat := by decide

/-- The empty stack that ends the run, and the highest slot. -/
theorem witness_RtsReturnsOrFinishes :
    seeded.MemOk ∧ seeded.StackOk ∧ seeded.sp = minStack ∧ wordIn seeded minStack.toNat = 0#16 ∧
    (seeded.setSp 0xEFE#16).StackOk ∧ (seeded.setSp 0xEFE#16).sp.toNat - 2 ≠ minStack.toNat := by
  refine ⟨rfl, ⟨?_, ?_, ?_⟩, rfl, ?_, ⟨?_, ?_, ?_⟩, ?_⟩ <;> decide

/-- A CALL at 0x200 on an empty stack; the RTS meets the very state it left. -/
theorem witness_CallThenReturnResumes : seeded.MemOk ∧ seeded.StackOk ∧ seeded.sp.toNat + 2 ≤ maxStack.toNat ∧
    ¬ (seeded.sp = minStack ∧ seeded.pc = 0#16) ∧
    got (fun t => (Memory.wf t.mem, t.sp, t.mem)) (exec (.call 0x300#12) seeded) =
      some (true, 0xEA2#16, [(0xEA0, 2#8)]) := by
  refine ⟨rfl, ⟨?_, ?_, ?_⟩, ?_, ?_, ?_⟩ <;> decide

theorem witness_RandMasksTheDraw : seeded.rngSeed = some 123 ∧ State.reset.rngSeed = none := by decide

theorem witness_PinnedSeedGivesThree : seeded.rngSeed = some 123 ∧ seeded.rngCount = 0 := by decide

/-- No sprite byte at I = 0xFFFF; the last sprite byte at 0xFFF; a set bit over a set pixel, and over clear pixels only. -/
theorem witness_DrawXorsSprite : (0#4 : Nibble) = 0#4 ∧
    ((holding 0xFFF [0x80#8]).setI 0xFFF#16).i.toNat + (1#4 : Nibble).toNat ≤ 0x1000 ∧
    spriteSets ((holding 0xFFF [0x80#8]).setI 0xFFF#16) 1#4 63 31 63 31 = true ∧
    ((holding 0xFFF [0x80#8]).setFb (drawn [(63, 31)])).fb.pixel 63 31 = true ∧
    (holding 0xFFF [0x80#8]).fb.pixel 63 31 = false := by decide +kernel

theorem witness_DrawTwiceRestores : (0#4 : RegIdx) ≠ VF ∧ seeded.fault = none ∧
    got (·.fault) (exec (.draw 0#4 1#4 15#4) seeded) = some none := by decide +kernel

/-- DT = 0; as many periods as DT; fewer. -/
theorem witness_TimerPhaseDecays : (seeded.setTimer 1#8 0).TimerOk ∧ seeded.TimerOk ∧ seeded.dt = 0#8 ∧
    (timerPhase ⟨166, 10⟩ (seeded.setTimer 1#8 0)).dt = 1#8 ∧ (timerPhase ⟨166, 9⟩ (seeded.setTimer 1#8 0)).dt = 0#8 :=
  ⟨⟨le_refl _, timerPeriod_pos, fun _ => rfl⟩, ⟨le_refl _, timerPeriod_pos, fun _ => rfl⟩, rfl, by decide +kernel,
    by decide +kernel⟩

theorem witness_BcdStoresDigits : (seeded.setI 0xFFD#16).MemOk ∧ (seeded.setI 0xFFD#16).i.toNat + 2 ≤ 0xFFF := ⟨rfl, by decide⟩

theorem witness_StorStoresRegisters : (seeded.setI 0xFF0#16).MemOk ∧ (seeded.setI 0xFF0#16).i.toNat + VF.toNat ≤ 0xFFF :=
  ⟨rfl, by decide⟩

theorem witness_ReadLoadsRegisters : (seeded.setI 0xFF0#16).i.toNat + VF.toNat ≤ 0xFFF := by decide

/-- One byte too far, for each of the four. -/
theorem witness_IndexAccessAboveMemoryIsLatched : (2#4 : Nibble) ≠ 0#4 ∧
    (seeded.setI 0xFFF#16).i.toNat + (2#4 : Nibble).toNat > 0x1000 ∧ (seeded.setI 0xFFE#16).i.toNat + 2 > 0xFFF ∧
    (seeded.setI 0xFF1#16).i.toNat + VF.toNat > 0xFFF := by decide

theorem witness_StoreIsSeenByNextFetch : (seeded.setI 0x202#16).MemOk ∧
    (seeded.setI 0x202#16).i.toNat + (1#4 : RegIdx).toNat ≤ 0xFFF ∧ 1 ≤ (1#4 : RegIdx).toNat ∧
    (seeded.setI 0x202#16).i = (seeded.setI 0x202#16).pc + 2#16 ∧
    got (·.pc) (exec (.stor 1#4) (seeded.setI 0x202#16)) = some 0x202#16 := by
  refine ⟨rfl, ?_, ?_, ?_, ?_⟩ <;> decide

theorem witness_StubsOnlyAdvance : Instr.skpr 1#4 ∈ [Instr.skpr 1#4, .skup 1#4, .keyd 1#4, .loads 1#4] ∧
    Instr.loads 1#4 ∈ [Instr.skpr 1#4, .skup 1#4, .keyd 1#4, .loads 1#4] := by decide

/-- The longest image, and one byte more. -/
theorem witness_LoadRomPlacesImage : seeded.MemOk ∧ (List.replicate 3232 0xAA#8).length ≤ 3232 ∧
    (List.replicate 3233 0xAA#8).length > 3232 := ⟨rfl, List.length_replicate.le, List.length_replicate.symm ▸ by decide⟩

theorem witness_BootFetchesFirstRomWord : (List.replicate 3230 0xAA#8).length + 2 ≤ 3232 := by
  rw [List.length_replicate]

open Assembler in
theorem witness_AssembledLineDecodes :
    emitInstruction [("A".toList, 0xFFF)] .jump "A".toList = .ok [0x1F#8, 0xFF#8] := by decide

open Assembler in
/-- A data byte before an instruction at an odd address. -/
theorem witness_ImageLengthMatchesPointer :
    assembleString "DB $1.......\nODD:\nJUMP ODD" = .ok [0x80#8, 0x12#8, 0x01#8] := by decide

open Assembler in
theorem witness_LabelIsAddressOfNextByte : (Line.mk 2 "A:".toList).cls = .label "A".toList ∧
    resolve ([Line.mk 1 "RTS".toList] ++ Line.mk 2 "A:".toList :: [Line.mk 3 "RTS".toList]) 0x200 [] =
      .ok (0x204, [("A".toList, 0x202)]) := by decide

open Assembler in
/-- V-ASM-30, an error of pass 1; and an error of pass 2 (as in V-ASM-33) on the last line, after a line that passes. -/
theorem witness_AssemblyErrorNamesItsLine :
    assembleSource "\nFOO".toList = .error (.error .unknownInstruction 2 "FOO".toList) ∧
    assembleSource "RTS\nJUMP NOWHERE".toList = .error (.error .unresolvedLabel 2 "JUMP NOWHERE".toList) := by decide

end Sys2Proof.Tests
end

section
/-! PROOFS. What the step cycle answers (spec/00_scope.md R7, R9; 40_control_flow.md R120, R129): one equation per branch of the cycle,
and that each of its parts answers a next state. -/

open Sys2Proof Sys2Proof.Machine

namespace Sys2Proof.Machine

/-! ### The branches of the cycle -/

theorem fetchExecute_of_fetch_error {s : State} {f : Fault} (h : s.fetch = .error f) :
    fetchExecute s = .next (s.raise f) := by
  rw [fetchExecute, h]

theorem fetchExecute_of_decode_error {s : State} {op : Word} {r : Reject} (hf : s.fetch = .ok op)
    (hd : decode op = .error r) : fetchExecute s = .next (s.raise (.unknownOpcode op s.pc)) := by
  simp only [fetchExecute, hf, hd]

theorem fetchExecute_of_decode_ok {s : State} {op : Word} {i : Instr} (hf : s.fetch = .ok op)
    (hd : decode op = .ok i) : fetchExecute s = exec i (s.setFbu false) := by
  simp only [fetchExecute, hf, hd]

theorem stepWith_of_ended (e : Millis) {s : State} (h : s.ended = true) : stepWith e s = .next s := if_pos h

theorem stepWith_of_running (e : Millis) {s : State} (h : s.Running) :
    stepWith e s = rollback s (fetchExecute (timerPhase e s)) :=
  if_neg (by simp [(ended_eq_false_iff s).mpr h])

theorem step_of_ended {s : State} (h : s.ended = true) : step s = .next s := if_pos h

theorem step_of_running {s : State} (h : s.Running) : step s = stepWith s.takeElapsed.1 s.takeElapsed.2 :=
  if_neg (by simp [(ended_eq_false_iff s).mpr h])

/-! ### Every part answers a next state (log 12) -/

theorem complete_next (s : State) (r : Attempt State) : ∃ t, complete s r = .next t := by
  obtain ⟨t, _, h⟩ | ⟨f, _, h⟩ := complete_cases s r
  · exact ⟨t, h⟩
  · exact ⟨s.raise f, h⟩

/-- Six meanings end in `complete`, which takes the fault they may raise; every other one names its next state. -/
theorem exec_next (i : Instr) (s : State) : ∃ t, exec i s = .next t := by
  cases i
  case rts => exact complete_next s (returnSub s)
  case call nnn => exact complete_next s (callSub nnn s)
  case draw x y n => exact complete_next s (drawSprite x y n s)
  case bcd x => exact complete_next s (storeAtIndex s (bcdDigits (s.getV x)))
  case stor x => exact complete_next s (storeAtIndex s (s.regsUpTo x))
  case read x => exact complete_next s (loadFromIndex x s)
  all_goals exact ⟨_, rfl⟩

theorem fetchExecute_next (s : State) : ∃ t, fetchExecute s = .next t := by
  cases hf : s.fetch with
  | error f => exact ⟨_, fetchExecute_of_fetch_error hf⟩
  | ok op =>
    cases hd : decode op with
    | error r => exact ⟨_, fetchExecute_of_decode_error hf hd⟩
    | ok i => exact fetchExecute_of_decode_ok hf hd ▸ exec_next i (s.setFbu false)

theorem rollback_next (s0 t : State) : ∃ u, rollback s0 (.next t) = .next u := by
  cases hf : t.fault with
  | none => exact ⟨t, rollback_none hf⟩
  | some f => exact ⟨s0.raise f, rollback_some hf⟩

theorem stepWith_next (e : Millis) (s : State) : ∃ t, stepWith e s = .next t := by
  cases h : s.ended with
  | true => exact ⟨s, stepWith_of_ended e h⟩
  | false =>
    obtain ⟨t, ht⟩ := fetchExecute_next (timerPhase e s)
    rw [stepWith_of_running e ((ended_eq_false_iff s).mp h), ht]
    exact rollback_next s t

theorem step_next (s : State) : ∃ t, step s = .next t := by
  cases h : s.ended with
  | true => exact ⟨s, step_of_ended h⟩
  | false =>
    rw [step_of_running ((ended_eq_false_iff s).mp h)]
    exact stepWith_next _ _

/-! ### The argument of a step (log 5) -/

theorem takeElapsed_cons {s : State} {e : Millis} {rest : List Millis} (h : s.elapsedQueue = e :: rest) :
    s.takeElapsed = (e, s.setQueue rest) := by
  rw [State.takeElapsed, h]

theorem takeElapsed_nil {s : State} (h : s.elapsedQueue = []) :
    s.takeElapsed = (Config.freeElapsed s.freeCount, s.countFree) := by
  rw [State.takeElapsed, h]

/-! ### The statements -/

/-- Settles O12: each instruction, and each branch of the cycle around it, answers a next state. -/
theorem everyStepAnswersNext : Obligations.EveryStepAnswersNext := ⟨exec_next, step_next⟩

/-- Settles O8: a running state's step is `stepWith` on the argument taken, in the two cases of the queue. -/
theorem stepTakesElapsedArgument : Obligations.StepTakesElapsedArgument := by
  intro s hrun
  refine ⟨fun e rest hq => ?_, fun hq => ?_⟩
  · rw [step_of_running hrun, takeElapsed_cons hq, State.setQueue]
  · rw [step_of_running hrun, takeElapsed_nil hq, State.countFree]

end Sys2Proof.Machine
end

section
/-! PROOFS. What one instruction can do to the state, said once: `Effect` lists the shapes of the state after an instruction, and
`exec_effect` is the one case split over the instructions. The rules of spec/10_state.md on who writes what follow from the shapes. -/

open Sys2Proof Sys2Proof.Machine

namespace Sys2Proof.Machine

/-! ### The shapes of the state after an instruction -/

/-- `Effect s i t`: `t` has the shape of a state that instruction `i`, begun in `s`, may leave. A shape that writes anything but PC and
the fault latch names the instructions that have it; it is tied to the model by `exec_effect`. -/
inductive Effect (s : State) (i : Instr) : State → Prop
  /-- A fault taken in the state before (R327). -/
  | faults (f : Fault) : Effect s i (s.raise f)
  /-- Only PC is written: the jumps, the skips and the stubs. -/
  | goes (w : Word) : Effect s i (s.setPc w)
  /-- One register is written, no flag. -/
  | setsReg (x y : RegIdx) (nn b : Byte)
      (hi : i = .load x nn ∨ i = .addb x nn ∨ i = .move x y ∨ i = .or x y ∨ i = .and x y ∨ i = .xor x y ∨ i = .moved x) :
      Effect s i (s.setV x b).advance
  /-- RAND with a seed (R181). -/
  | drawsSeeded (x : RegIdx) (nn b : Byte) (hi : i = .rand x nn) : Effect s i (s.countRand.setV x b).advance
  /-- RAND without a seed (R181). -/
  | drawsFree (x : RegIdx) (nn b : Byte) (hi : i = .rand x nn) : Effect s i (s.countRand.countFree.setV x b).advance
  /-- A result, then the flag in VF (R160). -/
  | setsFlag (x y : RegIdx) (b c : Byte)
      (hi : i = .add x y ∨ i = .sub x y ∨ i = .subn x y ∨ i = .shr x y ∨ i = .shl x y) :
      Effect s i (s.setResultFlag x b c).advance
  /-- I is written. -/
  | setsI (nnn : Addr) (x : RegIdx) (w : Word) (hi : i = .loadi nnn ∨ i = .addi x ∨ i = .ldspr x) :
      Effect s i (s.setI w).advance
  /-- LOADD restarts the timer (R212). -/
  | setsTimer (x : RegIdx) (d : Byte) (hi : i = .loadd x) : Effect s i (s.setTimer d 0).advance
  /-- CLR (R190). -/
  | clears (hi : i = .clr) : Effect s i ((s.setFb FrameBuffer.clear).setFbu true).advance
  /-- DRAW, its sprite inside memory (R191). -/
  | blits (x y : RegIdx) (n : Nibble) (g : FrameBuffer) (c : Byte) (hi : i = .draw x y n) :
      Effect s i (((s.setFb g).setV VF c).setFbu true).advance
  /-- CALL, with room for its slot (R126). -/
  | calls (nnn : Addr) (hi : i = .call nnn) (hroom : s.sp.toNat + 2 ≤ maxStack.toNat) :
      Effect s i (((s.setMem (Memory.storeBytes s.mem s.sp.toNat [hiByte s.pc, loByte s.pc])).setSp (s.sp + 2#16)).setPc
        (addrOperand nnn))
  /-- RTS on the bottom slot holding zero (R127). -/
  | finishes (hi : i = .rts) (hslot : popSlot s = minStack) (hzero : s.wordAt (popSlot s).toNat = 0#16) :
      Effect s i (s.setFinished.setSp (popSlot s))
  /-- RTS on any other slot (R127). -/
  | returns (w : Word) (hi : i = .rts) (hslot : (popSlot s).toNat + 1 < Config.memSize) :
      Effect s i (((s.setMem (Memory.storeBytes s.mem (popSlot s).toNat [0#8, 0#8])).setSp (popSlot s)).setPc w)
  /-- BCD and STOR, their bytes inside memory (R232, R233). -/
  | stores (x : RegIdx) (bytes : List Byte) (hi : i = .bcd x ∨ i = .stor x)
      (hfit : bytes = [] ∨ s.i.toNat + bytes.length ≤ Config.memSize) :
      Effect s i (s.setMem (Memory.storeBytes s.mem s.i.toNat bytes)).advance
  /-- READ, its bytes inside memory (R234). -/
  | reads (x : RegIdx) (bytes : List Byte) (hi : i = .read x) (hlen : bytes.length = x.toNat + 1) :
      Effect s i (s.loadRegs 0 bytes).advance

theorem skipIf_eq_setPc (s : State) (c : Bool) : s.skipIf c = s.setPc (if c then s.pc + 4#16 else s.pc + 2#16) := by
  cases c <;> rfl

/-! ### The instructions that may raise a fault -/

variable {s t : State} {i : Instr}

/-- An instruction that ends in `complete` has the shape of its result, or of the fault taken. -/
theorem complete_effect {r : Attempt State} (hr : ∀ u, r = .ok u → Effect s i u) (h : complete s r = .next t) :
    Effect s i t := by
  obtain ⟨u, hu, hc⟩ | ⟨f, _, hc⟩ := complete_cases s r <;> rw [hc] at h <;> cases h
  · exact hr _ hu
  · exact .faults f

theorem callSub_effect {nnn : Addr} (h : callSub nnn s = .ok t) : Effect s (.call nnn) t := by
  by_cases hroom : s.sp.toNat + 2 ≤ maxStack.toNat
  · rw [callSub_ok s nnn hroom] at h; cases h
    exact .calls nnn rfl hroom
  · rw [callSub_error s nnn (by omega)] at h; cases h

theorem returnSub_effect (h : returnSub s = .ok t) : Effect s .rts t := by
  by_cases hm : (popSlot s).toNat + 1 < Config.memSize
  · by_cases hend : popSlot s = minStack ∧ s.wordAt (popSlot s).toNat = 0#16
    · rw [returnSub_finish s hm hend] at h; cases h
      exact .finishes rfl hend.1 hend.2
    · rw [returnSub_return s hm hend] at h; cases h
      exact .returns _ rfl hm
  · rw [returnSub_error s (by omega)] at h; cases h

theorem drawSprite_effect {x y : RegIdx} {n : Nibble} (h : drawSprite x y n s = .ok t) : Effect s (.draw x y n) t := by
  by_cases hfit : n = 0#4 ∨ s.i.toNat + n.toNat ≤ Config.memSize
  · rw [drawSprite_ok s x y n hfit] at h; cases h
    exact .blits x y n _ _ rfl
  · rw [not_or] at hfit
    rw [drawSprite_error s x y n hfit.1 (by omega)] at h; cases h

theorem storeAtIndex_effect {x : RegIdx} {bytes : List Byte} (hi : i = .bcd x ∨ i = .stor x)
    (h : storeAtIndex s bytes = .ok t) : Effect s i t := by
  by_cases hfit : bytes = [] ∨ s.i.toNat + bytes.length ≤ Config.memSize
  · rw [storeAtIndex_ok s hfit] at h; cases h
    exact .stores x bytes hi hfit
  · rw [not_or] at hfit
    rw [storeAtIndex_error s hfit.1 (by omega)] at h; cases h

theorem loadFromIndex_effect {x : RegIdx} (h : loadFromIndex x s = .ok t) : Effect s (.read x) t := by
  by_cases hfit : s.i.toNat + (x.toNat + 1) ≤ Config.memSize
  · rw [loadFromIndex_ok s x hfit] at h; cases h
    exact .reads x _ rfl (by simp)
  · rw [loadFromIndex_error s x (by omega)] at h; cases h

/-! ### Every instruction -/

theorem execRand_effect {x : RegIdx} {nn : Byte} (h : execRand x nn s = .next t) : Effect s (.rand x nn) t := by
  obtain ⟨seed, _, hr⟩ | ⟨_, hr⟩ := randomByte_cases s <;> rw [execRand, hr] at h <;> cases h
  · exact .drawsSeeded x nn _ rfl
  · exact .drawsFree x nn _ rfl

/-- What an instruction can do: the state it leaves has one of the shapes of `Effect`. -/
theorem exec_effect (h : exec i s = .next t) : Effect s i t := by
  cases i
  case call nnn => exact complete_effect (fun _ => callSub_effect) h
  case rts => exact complete_effect (fun _ => returnSub_effect) h
  case draw x y n => exact complete_effect (fun _ => drawSprite_effect) h
  case bcd x => exact complete_effect (fun _ => storeAtIndex_effect (.inl rfl)) h
  case stor x => exact complete_effect (fun _ => storeAtIndex_effect (.inr rfl)) h
  case read x => exact complete_effect (fun _ => loadFromIndex_effect) h
  case rand x nn => exact execRand_effect h
  case ske x nn | skne x nn => cases h; rw [skipIf_eq_setPc]; exact .goes _
  case skre x y | skrne x y => cases h; rw [skipIf_eq_setPc]; exact .goes _
  case jump nnn | jumpi nnn => cases h; exact .goes _
  case skpr x | skup x | keyd x | loads x => cases h; exact .goes _
  case load x nn | addb x nn => cases h; exact .setsReg x 0#4 nn _ (by simp)
  case move x y | or x y | and x y | xor x y => cases h; exact .setsReg x y 0#8 _ (by simp)
  case moved x => cases h; exact .setsReg x 0#4 0#8 _ (by simp)
  case add x y | sub x y | subn x y | shr x y | shl x y => cases h; exact .setsFlag x y _ _ (by simp)
  case loadi nnn => cases h; exact .setsI nnn 0#4 _ (by simp)
  case addi x | ldspr x => cases h; exact .setsI 0#12 x _ (by simp)
  case loadd x => cases h; exact .setsTimer x _ rfl
  case clr => cases h; exact .clears rfl

end Sys2Proof.Machine
end

section
/-! PROOFS. The state between steps (spec/10_state.md): who writes which piece of it (R21, R22, R24, R25, R29, R31), and that every step
keeps the invariant (R24, R26, R27, R31). -/

open Sys2Proof Sys2Proof.Machine

namespace Sys2Proof.Machine

variable {s t : State} {i : Instr}

/-! ### Who writes which piece of state -/

namespace Effect

theorem i_eq (h : Effect s i t) (hw : ∀ nnn x, i ≠ .loadi nnn ∧ i ≠ .addi x ∧ i ≠ .ldspr x) : t.i = s.i := by
  cases h
  case setsI nnn x w hi => have := hw nnn x; tauto
  all_goals simp

theorem sp_eq (h : Effect s i t) (hw : ∀ nnn, i ≠ .call nnn ∧ i ≠ .rts) : t.sp = s.sp := by
  cases h
  case calls nnn hi _ => exact absurd hi (hw nnn).1
  case finishes hi _ _ | returns _ hi _ => exact absurd hi (hw 0#12).2
  all_goals simp

theorem timer_eq (h : Effect s i t) (hw : ∀ x, i ≠ .loadd x) : t.dt = s.dt ∧ t.dtAcc = s.dtAcc := by
  cases h
  case setsTimer x d hi => exact absurd hi (hw x)
  all_goals simp

theorem mem_eq (h : Effect s i t) (hw : ∀ nnn x, i ≠ .call nnn ∧ i ≠ .rts ∧ i ≠ .bcd x ∧ i ≠ .stor x) : t.mem = s.mem := by
  cases h
  case calls nnn hi _ => exact absurd hi (hw nnn 0#4).1
  case returns w hi _ => exact absurd hi (hw 0#12 0#4).2.1
  case stores x bytes hi _ => have := hw 0#12 x; tauto
  all_goals simp

theorem fb_eq (h : Effect s i t) (hw : ∀ x y n, i ≠ .clr ∧ i ≠ .draw x y n) :
    t.fb = s.fb ∧ t.frameBufferUpdated = s.frameBufferUpdated := by
  cases h
  case clears hi => exact absurd hi (hw 0#4 0#4 0#4).1
  case blits x y n g c hi => exact absurd hi (hw x y n).2
  all_goals simp

theorem playSound_eq (h : Effect s i t) : t.playSound = s.playSound := by
  cases h <;> simp

theorem finished_cases (h : Effect s i t) :
    t.finished = s.finished ∨ (i = .rts ∧ popSlot s = minStack ∧ s.wordAt (popSlot s).toNat = 0#16) := by
  cases h
  case finishes hi hslot hzero => exact .inr ⟨hi, hslot, hzero⟩
  all_goals exact .inl (by simp)

/-- VF is written by the six flag writers, and by the instructions that name it as their destination. -/
theorem getV_VF_eq (h : Effect s i t)
    (hflag : ∀ x y n, i ≠ .add x y ∧ i ≠ .sub x y ∧ i ≠ .subn x y ∧ i ≠ .shr x y ∧ i ≠ .shl x y ∧ i ≠ .draw x y n)
    (hdest : ∀ nn y, i ≠ .load VF nn ∧ i ≠ .addb VF nn ∧ i ≠ .move VF y ∧ i ≠ .or VF y ∧ i ≠ .and VF y ∧ i ≠ .xor VF y ∧
      i ≠ .rand VF nn ∧ i ≠ .moved VF ∧ i ≠ .read VF) :
    t.getV VF = s.getV VF := by
  cases h
  case setsFlag x y b c hi => have := hflag x y 0#4; tauto
  case blits x y n g c hi => have := hflag x y n; tauto
  case setsReg x y nn b hi =>
    have hx : VF ≠ x := by rintro rfl; have := hdest nn y; tauto
    simp [hx]
  case drawsSeeded x nn b hi | drawsFree x nn b hi =>
    have hx : VF ≠ x := by rintro rfl; have := hdest nn 0#4; tauto
    simp [hx]
  case reads x bytes hi hlen =>
    have hx : x ≠ VF := by rintro rfl; have := hdest 0#8 0#4; tauto
    have hlt : x.toNat < 15 := by bv_omega
    have hout : ¬ (0 ≤ VF.toNat ∧ VF.toNat < 0 + bytes.length) := by simp; omega
    rw [State.getV_advance, State.getV_loadRegs bytes s 0 (by omega), if_neg hout]
  all_goals simp

end Effect

/-- Settles O21: the shapes of `Effect`, piece by piece. -/
theorem stateWriters : Obligations.StateWriters := by
  intro i s t h
  have he := exec_effect h
  exact ⟨he.i_eq, he.sp_eq, he.timer_eq, fun hw a => by rw [State.byteAt, he.mem_eq hw, State.byteAt], he.fb_eq,
    he.playSound_eq⟩

/-- Settles O22: the shapes of `Effect` that write a register. -/
theorem vfWriters : Obligations.VfWriters := fun _ _ _ h => (exec_effect h).getV_VF_eq

/-! ### The end of the run (R29, R127) -/

/-- The two stack pointers whose popped slot is the bottom one: the empty stack and the stack of one entry. -/
theorem popSlot_eq_minStack_iff (h : s.StackOk) : popSlot s = minStack ↔ s.sp = minStack ∨ s.sp = minStack + 2#16 := by
  have hslot := popSlot_toNat h
  have htop : (minStack + 2#16).toNat = minStack.toNat + 2 := rfl
  obtain ⟨hlow, _, heven⟩ := h
  have hmin : minStack.toNat = 3744 := rfl
  simp only [← BitVec.toNat_inj, htop] at hslot ⊢
  split at hslot <;> omega

/-- RTS on the bottom slot holding zero ends the run. -/
theorem exec_rts_finished (hs : s.StackOk) (hslot : popSlot s = minStack) (hzero : s.wordAt (popSlot s).toNat = 0#16)
    (h : exec .rts s = .next t) : t.finished = true := by
  have hexec : exec .rts s = .next (s.setFinished.setSp (popSlot s)) :=
    congrArg (complete s) (returnSub_finish s (popSlot_in_memory hs) ⟨hslot, hzero⟩)
  rw [hexec] at h
  cases h
  rfl

/-- No instruction clears `finished`. -/
theorem exec_keeps_finished (h : exec i s = .next t) (hs : s.finished = true) : t.finished = true := by
  cases exec_effect h <;> simp [hs]

/-- Settles O20: the one shape of `Effect` that sets `finished`, and RTS run on it. -/
theorem onlyRtsFinishes : Obligations.OnlyRtsFinishes := by
  intro i s t hs h
  constructor
  · intro ht
    obtain heq | ⟨hi, hslot, hzero⟩ := (exec_effect h).finished_cases
    · exact .inl (heq ▸ ht)
    · exact .inr ⟨hi, (popSlot_eq_minStack_iff hs).mp hslot, hslot ▸ hzero⟩
  · rintro (hfin | ⟨rfl, hsp, hzero⟩)
    · exact exec_keeps_finished h hfin
    · have hslot := (popSlot_eq_minStack_iff hs).mpr hsp
      exact exec_rts_finished hs hslot (hslot.symm ▸ hzero) h

/-! ### The invariant, instruction by instruction -/

/-- Memory stays canonical: the three shapes that store keep inside memory (R27, R65). -/
theorem Effect.memOk (h : Effect s i t) (hm : s.MemOk) : t.MemOk := by
  have hmax : maxStack.toNat = 3839 := rfl
  have hsize : Config.memSize = 4096 := rfl
  unfold State.MemOk at hm ⊢
  cases h
  case calls _ _ hroom | returns _ _ hslot =>
    exact Memory.wf_storeBytes _ hm (by simp only [List.length_cons, List.length_nil]; omega)
  case stores x bytes _ hfit =>
    obtain rfl | hle := hfit
    · exact hm
    · exact Memory.wf_storeBytes bytes hm hle
  all_goals simpa using hm

/-- SP stays in its window: a push has room, and the popped slot lies in the window (R24). -/
theorem Effect.stackOk (h : Effect s i t) (hs : s.StackOk) : t.StackOk := by
  cases h
  case calls nnn _ hroom =>
    obtain ⟨hlow, hhigh, heven⟩ := hs
    have hmax : maxStack.toNat = 3839 := rfl
    have hsp : (s.sp + 2#16).toNat = s.sp.toNat + 2 := by bv_omega
    simp only [State.StackOk, State.setPc_sp, State.setSp_sp, hsp]
    omega
  case finishes | returns => exact popSlot_bounds hs
  all_goals simpa [State.StackOk] using hs

/-- The accumulator keeps its range: LOADD alone writes it, and writes 0 (R26, R212). -/
theorem Effect.timerOk (h : Effect s i t) (ht : s.TimerOk) : t.TimerOk := by
  cases h
  case setsTimer => exact ⟨le_refl _, timerPeriod_pos, fun _ => rfl⟩
  all_goals simpa [State.TimerOk] using ht

theorem exec_keeps_inv (h : exec i s = .next t) (hs : s.Inv) : t.Inv :=
  have he := exec_effect h
  ⟨he.memOk hs.mem, he.stackOk hs.stack, he.timerOk hs.timer, he.playSound_eq.trans hs.sound⟩

/-! ### The invariant through the cycle -/

theorem raise_keeps_inv (f : Fault) (h : s.Inv) : (s.raise f).Inv := ⟨h.mem, h.stack, h.timer, h.sound⟩

theorem setFbu_keeps_inv (c : Bool) (h : s.Inv) : (s.setFbu c).Inv := ⟨h.mem, h.stack, h.timer, h.sound⟩

theorem timerPhase_keeps_inv (e : Millis) (h : s.Inv) : (timerPhase e s).Inv where
  mem := by simpa [State.MemOk] using h.mem
  stack := by simpa [State.StackOk] using h.stack
  timer := timerPhase_timerOk e h.timer
  sound := by simpa using h.sound

theorem takeElapsed_keeps_inv (h : s.Inv) : s.takeElapsed.2.Inv := by
  obtain ⟨e, rest, _, hq⟩ | ⟨_, hq⟩ := takeElapsed_cases s <;> rw [hq]
  all_goals exact ⟨h.mem, h.stack, h.timer, h.sound⟩

theorem fetchExecute_keeps_inv (h : fetchExecute s = .next t) (hs : s.Inv) : t.Inv := by
  cases hf : s.fetch with
  | error f =>
    rw [fetchExecute_of_fetch_error hf] at h
    cases h
    exact raise_keeps_inv f hs
  | ok op =>
    cases hd : decode op with
    | error r =>
      rw [fetchExecute_of_decode_error hf hd] at h
      cases h
      exact raise_keeps_inv _ hs
    | ok i =>
      rw [fetchExecute_of_decode_ok hf hd] at h
      exact exec_keeps_inv h (setFbu_keeps_inv false hs)

theorem rollback_keeps_inv {s0 u : State} (h : rollback s0 (.next t) = .next u) (h0 : s0.Inv) (ht : t.Inv) : u.Inv := by
  cases hf : t.fault with
  | none =>
    rw [rollback_none hf] at h
    cases h
    exact ht
  | some f =>
    rw [rollback_some hf] at h
    cases h
    exact raise_keeps_inv f h0

theorem stepWith_keeps_inv {e : Millis} (h : stepWith e s = .next t) (hs : s.Inv) : t.Inv := by
  cases hend : s.ended with
  | true =>
    rw [stepWith_of_ended e hend] at h
    cases h
    exact hs
  | false =>
    obtain ⟨u, hu⟩ := fetchExecute_next (timerPhase e s)
    rw [stepWith_of_running e ((ended_eq_false_iff s).mp hend), hu] at h
    exact rollback_keeps_inv h hs (fetchExecute_keeps_inv hu (timerPhase_keeps_inv e hs))

/-- Settles O16: `Effect` keeps each part of the invariant, and so does every part of the cycle around the instruction. -/
theorem stepKeepsInvariant : Obligations.StepKeepsInvariant := by
  intro s t hs h
  cases hend : s.ended with
  | true =>
    rw [step_of_ended hend] at h
    cases h
    exact hs
  | false =>
    rw [step_of_running ((ended_eq_false_iff s).mp hend)] at h
    exact stepWith_keeps_inv h (takeElapsed_keeps_inv hs)

/-! ### The state after reset (R39) -/

theorem resetWith_inv (seed : Option Int) : (State.resetWith seed).Inv where
  mem := rfl
  stack := ⟨Nat.le_refl minStack.toNat, (by decide : minStack.toNat + 1 ≤ maxStack.toNat),
    (by decide : minStack.toNat % 2 = 0)⟩
  timer := ⟨le_refl _, timerPeriod_pos, fun _ => rfl⟩
  sound := rfl

theorem resetWith_running (seed : Option Int) : (State.resetWith seed).Running := ⟨rfl, rfl⟩

@[simp] theorem getV_resetWith (seed : Option Int) (x : RegIdx) : (State.resetWith seed).getV x = 0#8 := by
  simp [State.getV, State.resetWith]

theorem getV_hostReset (seed : Option Int) (x : RegIdx) : (s.hostReset seed).getV x = 0#8 := getV_resetWith seed x

/-- Settles O15: the reset values meet each part of the invariant, and nothing is latched or finished. -/
theorem resetMeetsInvariant : Obligations.ResetMeetsInvariant :=
  ⟨resetWith_inv none, fun seed => ⟨resetWith_inv seed, resetWith_running seed⟩⟩

/-- Settles O51: the rows of R39 field by field; the frame buffer and the registers by their reading lemmas. -/
theorem hostResetValues : Obligations.HostResetValues := by
  intro s seed
  refine ⟨s.hostReset seed, rfl, rfl, rfl, FrameBuffer.pixel_clear, rfl, rfl, getV_hostReset seed, ?_⟩
  exact ⟨rfl, rfl, rfl, fun _ => rfl, rfl, rfl, rfl, rfl, rfl, rfl⟩

end Sys2Proof.Machine
end

section
/-! PROOFS. STOR inside memory (spec/47_index_memory.md R233), and that the next fetch reads what it stored (spec/20_memory.md R72). -/

open Sys2Proof Sys2Proof.Machine

namespace Sys2Proof.Machine

variable {s t : State} {x : RegIdx}

/-- STOR whose last byte lies inside memory answers the state with V0 to VX stored from I on. -/
theorem exec_stor_of_fits (hfit : s.i.toNat + x.toNat ≤ 0xFFF) :
    exec (.stor x) s = .next (s.setMem (Memory.storeBytes s.mem s.i.toNat (s.regsUpTo x))).advance := by
  have hlen : s.i.toNat + (s.regsUpTo x).length ≤ Config.memSize := by
    rw [s.regsUpTo_length x, show Config.memSize = 4096 from rfl]
    omega
  have hexec : exec (.stor x) s = complete s (storeAtIndex s (s.regsUpTo x)) := rfl
  rw [hexec, storeAtIndex_ok s (.inr hlen), complete_ok]

theorem exec_stor_pc (hfit : s.i.toNat + x.toNat ≤ 0xFFF) (h : exec (.stor x) s = .next t) : t.pc = s.pc + 2#16 := by
  rw [exec_stor_of_fits hfit] at h
  cases h
  rfl

/-- After STOR the byte at I + k is the register Vk, for every k up to X (R233). -/
theorem exec_stor_byteAt (hm : s.MemOk) (hfit : s.i.toNat + x.toNat ≤ 0xFFF) (h : exec (.stor x) s = .next t)
    {k : RegIdx} (hk : k.toNat ≤ x.toNat) : t.byteAt (s.i.toNat + k.toNat) = s.getV k := by
  have hsize : Config.memSize = 4096 := rfl
  have hlen := s.regsUpTo_length x
  rw [exec_stor_of_fits hfit] at h
  cases h
  calc Memory.readByte (Memory.storeBytes s.mem s.i.toNat (s.regsUpTo x)) (s.i.toNat + k.toNat)
      = (s.regsUpTo x).getD k.toNat 0#8 := Memory.readByte_storeBytes_inside _ hm (by omega) (by omega)
    _ = s.getV k := s.regsUpTo_getD hk

/-- Settles O49: STOR leaves PC at the old I, where the fetch finds the stored V0 and V1. -/
theorem storeIsSeenByNextFetch : Obligations.StoreIsSeenByNextFetch := by
  intro x s t hm hfit hx hi h
  have hpc : t.pc = s.i := (exec_stor_pc hfit h).trans hi.symm
  have hroom : t.pc.toNat + 1 < Config.memSize := by
    rw [hpc, show Config.memSize = 4096 from rfl]
    omega
  have hfirst : t.byteAt s.i.toNat = s.getV 0#4 := exec_stor_byteAt hm hfit h (k := 0#4) (Nat.zero_le _)
  have hsecond : t.byteAt (s.i.toNat + 1) = s.getV 1#4 := exec_stor_byteAt hm hfit h (k := 1#4) hx
  rw [t.fetch_ok hroom, hpc, State.wordAt, hfirst, hsecond]

end Sys2Proof.Machine
end

section
/-! PROOFS. The encoding and the decoding of instructions (spec/30_encoding.md R92, R95, R98, R103, R104). A word splits into the fixed bits
of its row and the bits its fields cut from it; encoding puts the fields back, decoding finds the row by the fixed bits. -/

open Sys2Proof Sys2Proof.Machine Sys2Proof.Laws

namespace Sys2Proof.Machine

/-! ### A field put back in its place keeps the word's bits there (R92, R104) -/

/-- The class of a word: bits 15:12, by which the table of R98 is ordered. -/
abbrev opClass (op : Word) : BitVec 4 := op.extractLsb' 12 4

/-- The bits cut from a word at `start`, put back at `start`, are the word under the mask of these bits. -/
theorem extractLsb'_setWidth_shiftLeft (op : Word) (start len : Nat) :
    (op.extractLsb' start len).setWidth 16 <<< start = op &&& (BitVec.allOnes len).setWidth 16 <<< start := by
  ext i hi
  by_cases hs : i < start
  · simp [hs]
  · by_cases hl : i - start < len
    · simp [hs, hl, hi, show start + (i - start) = i by omega]
    · simp [hs, hl]

theorem placeX_fieldX (op : Word) : placeX (fieldX op) = op &&& 0x0F00#16 := extractLsb'_setWidth_shiftLeft op 8 4

theorem placeY_fieldY (op : Word) : placeY (fieldY op) = op &&& 0x00F0#16 := extractLsb'_setWidth_shiftLeft op 4 4

theorem setWidth_opClass_shiftLeft (op : Word) : (opClass op).setWidth 16 <<< 12 = op &&& 0xF000#16 :=
  extractLsb'_setWidth_shiftLeft op 12 4

/-- A field at bit 0 needs no shift. -/
theorem extractLsb'_zero_setWidth (op : Word) (len : Nat) :
    (op.extractLsb' 0 len).setWidth 16 = op &&& (BitVec.allOnes len).setWidth 16 := by
  simpa using extractLsb'_setWidth_shiftLeft op 0 len

theorem setWidth_fieldN (op : Word) : (fieldN op).setWidth 16 = op &&& 0x000F#16 := extractLsb'_zero_setWidth op 4

theorem setWidth_fieldNN (op : Word) : (fieldNN op).setWidth 16 = op &&& 0x00FF#16 := extractLsb'_zero_setWidth op 8

theorem setWidth_fieldNNN (op : Word) : (fieldNNN op).setWidth 16 = op &&& 0x0FFF#16 := extractLsb'_zero_setWidth op 12

/-! ### Encoding the fields of a word (R104) -/

section
variable {m : Mnemonic} (op : Word)

theorem encFA_field (h : (rowOf m).mask = 0xF000#16) :
    encFA m (fieldNNN op) = (rowOf m).value ||| (op &&& ~~~(rowOf m).mask) := by
  rw [encFA, setWidth_fieldNNN, h]
  rfl

theorem encFXB_fields (h : (rowOf m).mask = 0xF000#16) :
    encFXB m (fieldX op) (fieldNN op) = (rowOf m).value ||| (op &&& ~~~(rowOf m).mask) := by
  rw [encFXB, placeX_fieldX, setWidth_fieldNN, h, BitVec.or_assoc, ← BitVec.and_or_distrib_left]
  rfl

theorem encFXY_fields (h : (rowOf m).mask = 0xF00F#16) :
    encFXY m (fieldX op) (fieldY op) = (rowOf m).value ||| (op &&& ~~~(rowOf m).mask) := by
  rw [encFXY, placeX_fieldX, placeY_fieldY, h, BitVec.or_assoc, ← BitVec.and_or_distrib_left]
  rfl

theorem encFXYN_fields (h : (rowOf m).mask = 0xF000#16) :
    encFXYN m (fieldX op) (fieldY op) (fieldN op) = (rowOf m).value ||| (op &&& ~~~(rowOf m).mask) := by
  rw [encFXYN, placeX_fieldX, placeY_fieldY, setWidth_fieldN, h, BitVec.or_assoc, BitVec.or_assoc,
    ← BitVec.and_or_distrib_left, ← BitVec.and_or_distrib_left]
  rfl

theorem encFX_field (h : (rowOf m).mask = 0xF0FF#16) :
    encFX m (fieldX op) = (rowOf m).value ||| (op &&& ~~~(rowOf m).mask) := by
  rw [encFX, placeX_fieldX, h]
  rfl

end

/-- Format F0 has no free bits. -/
theorem fixedWord_eq (value op : Word) : value = value ||| (op &&& ~~~0xFFFF#16) := by simp

/-- Encoding the fields a mnemonic cuts from a word keeps the word's free bits beside the row's fixed bits. -/
theorem encode_instrOf (m : Mnemonic) (op : Word) :
    encode (instrOf m op) = (rowOf m).value ||| (op &&& ~~~(rowOf m).mask) := by
  cases m
  case clr | rts => exact fixedWord_eq _ op
  case jump | call | loadi | jumpi => exact encFA_field op rfl
  case ske | skne | load | addb | rand => exact encFXB_fields op rfl
  case draw => exact encFXYN_fields op rfl
  case skpr | skup | moved | keyd | loadd | loads | addi | ldspr | bcd | stor | read => exact encFX_field op rfl
  all_goals exact encFXY_fields op rfl

/-- A word that matches a mnemonic's row is the encoding of the fields cut from it. -/
theorem encode_instrOf_of_matches {m : Mnemonic} {op : Word} (h : (rowOf m).matches op = true) :
    encode (instrOf m op) = op := by
  have hvalue : op &&& (rowOf m).mask = (rowOf m).value := by simpa [Row.matches] using h
  rw [encode_instrOf, ← hvalue, ← BitVec.and_or_distrib_left, BitVec.or_not_self, BitVec.and_allOnes]

/-! ### The fields of an encoding (R103) -/

/-- The encoded word matches the row of the instruction's mnemonic. -/
theorem rowOf_matches_encode (i : Instr) : (rowOf i.mnemonic).matches (encode i) = true := by
  cases i
  exacts [EncodeMatchesRow.clr, EncodeMatchesRow.rts, EncodeMatchesRow.jump _, EncodeMatchesRow.call _,
    EncodeMatchesRow.ske _ _, EncodeMatchesRow.skne _ _, EncodeMatchesRow.skre _ _, EncodeMatchesRow.load _ _,
    EncodeMatchesRow.addb _ _, EncodeMatchesRow.move _ _, EncodeMatchesRow.or _ _, EncodeMatchesRow.and _ _,
    EncodeMatchesRow.xor _ _, EncodeMatchesRow.add _ _, EncodeMatchesRow.sub _ _, EncodeMatchesRow.shr _ _,
    EncodeMatchesRow.subn _ _, EncodeMatchesRow.shl _ _, EncodeMatchesRow.skrne _ _, EncodeMatchesRow.loadi _,
    EncodeMatchesRow.jumpi _, EncodeMatchesRow.rand _ _, EncodeMatchesRow.draw _ _ _, EncodeMatchesRow.skpr _,
    EncodeMatchesRow.skup _, EncodeMatchesRow.moved _, EncodeMatchesRow.keyd _, EncodeMatchesRow.loadd _,
    EncodeMatchesRow.loads _, EncodeMatchesRow.addi _, EncodeMatchesRow.ldspr _, EncodeMatchesRow.bcd _,
    EncodeMatchesRow.stor _, EncodeMatchesRow.read _]

/-! The fixed bits of a row are zero in its operand fields, so that the fields of an encoding are the operands. -/

section
variable {m : Mnemonic}

theorem fieldNNN_encFA (h : fieldNNN (rowOf m).value = 0#12) (nnn : Addr) : fieldNNN (encFA m nnn) = nnn := by
  simp [encFA, h]

theorem fieldX_encFXB (h : fieldX (rowOf m).value = 0#4) (x : RegIdx) (nn : Byte) : fieldX (encFXB m x nn) = x := by
  simp [encFXB, h]

theorem fieldNN_encFXB (h : fieldNN (rowOf m).value = 0#8) (x : RegIdx) (nn : Byte) :
    fieldNN (encFXB m x nn) = nn := by
  simp [encFXB, h]

theorem fieldX_encFXY (h : fieldX (rowOf m).value = 0#4) (x y : RegIdx) : fieldX (encFXY m x y) = x := by
  simp [encFXY, h]

theorem fieldY_encFXY (h : fieldY (rowOf m).value = 0#4) (x y : RegIdx) : fieldY (encFXY m x y) = y := by
  simp [encFXY, h]

theorem fieldX_encFXYN (h : fieldX (rowOf m).value = 0#4) (x y : RegIdx) (n : Nibble) :
    fieldX (encFXYN m x y n) = x := by
  simp [encFXYN, h]

theorem fieldY_encFXYN (h : fieldY (rowOf m).value = 0#4) (x y : RegIdx) (n : Nibble) :
    fieldY (encFXYN m x y n) = y := by
  simp [encFXYN, h]

theorem fieldN_encFXYN (h : fieldN (rowOf m).value = 0#4) (x y : RegIdx) (n : Nibble) :
    fieldN (encFXYN m x y n) = n := by
  simp [encFXYN, h]

theorem fieldX_encFX (h : fieldX (rowOf m).value = 0#4) (x : RegIdx) : fieldX (encFX m x) = x := by
  simp [encFX, h]

end

/-- Every operand is back in its field of the encoded word. -/
theorem instrOf_encode (i : Instr) : instrOf i.mnemonic (encode i) = i := by
  cases i
  case clr | rts => rfl
  case jump nnn | call nnn | loadi nnn | jumpi nnn => exact congrArg _ (fieldNNN_encFA rfl nnn)
  case ske x nn | skne x nn | load x nn | addb x nn | rand x nn =>
    exact congrArg₂ _ (fieldX_encFXB rfl x nn) (fieldNN_encFXB rfl x nn)
  case draw x y n =>
    exact congr (congrArg₂ _ (fieldX_encFXYN rfl x y n) (fieldY_encFXYN rfl x y n)) (fieldN_encFXYN rfl x y n)
  case skpr x | skup x | moved x | keyd x | loadd x | loads x | addi x | ldspr x | bcd x | stor x | read x =>
    exact congrArg _ (fieldX_encFX rfl x)
  all_goals exact congrArg₂ _ (fieldX_encFXY rfl _ _) (fieldY_encFXY rfl _ _)

/-! ### What the decoder answers (R95) -/

theorem mem_and_matches_of_findRow {op : Word} {r : Row} (h : findRow op = some r) :
    r ∈ table ∧ r.matches op = true :=
  ⟨List.mem_of_find?_eq_some h, List.find?_some (p := fun r : Row => r.matches op) h⟩

theorem decode_of_matches {m : Mnemonic} {op : Word} (h : (rowOf m).matches op = true) :
    decode op = .ok (instrOf m op) := by
  simp only [decode, findRow_of_matches (rowOf_mem m) h, rowOf_mnemonic]

/-- A word decodes to an instruction exactly when it matches a row, and then to the row's mnemonic with the fields cut from the word. -/
theorem decode_eq_ok_iff {op : Word} {i : Instr} :
    decode op = .ok i ↔ ∃ m, (rowOf m).matches op = true ∧ i = instrOf m op := by
  constructor
  · intro h
    cases hf : findRow op with
    | none => simp [decode, hf] at h
    | some r =>
      obtain ⟨hmem, hr⟩ := mem_and_matches_of_findRow hf
      exact ⟨r.mnemonic, rowOf_of_mem hmem ▸ hr, by simpa [decode, hf, eq_comm] using h⟩
  · rintro ⟨m, hm, rfl⟩
    exact decode_of_matches hm

theorem decode_encode (i : Instr) : decode (encode i) = .ok i := by
  rw [decode_of_matches (rowOf_matches_encode i), instrOf_encode]

/-- Settles O2: the encoded word matches its own row, and the fields cut from it are the operands. -/
theorem decodeOfEncode : Obligations.DecodeOfEncode := decode_encode

/-- Settles O3: the row fixes the bits under its mask, the fields keep all the others. -/
theorem encodeOfDecode : Obligations.EncodeOfDecode := by
  intro op i h
  obtain ⟨m, hm, rfl⟩ := decode_eq_ok_iff.mp h
  exact encode_instrOf_of_matches hm

/-- Settles O5: the rows are disjoint, so that the row which matches is the row the search finds. -/
theorem decodeFollowsTable : Obligations.DecodeFollowsTable := by
  intro op i
  simp only [decode_eq_ok_iff, Row.matches, beq_iff_eq]
  constructor
  · rintro ⟨m, hm, hi⟩
    exact ⟨rowOf m, rowOf_mem m, hm, by rw [rowOf_mnemonic, hi]⟩
  · rintro ⟨r, hr, hm, hi⟩
    exact ⟨r.mnemonic, rowOf_of_mem hr ▸ hm, hi⟩

end Sys2Proof.Machine
end

section
/-! PROOFS. Which words are illegal (spec/30_encoding.md R98). The rows of a word's class are the only ones it can match; within the class a
row asks for its fixed low field, so that the words no row matches are listed class by class. -/

open Sys2Proof Sys2Proof.Machine

namespace Sys2Proof.Machine

variable {op v : Word}

/-! ### Matching by class and fixed low field (R95) -/

/-- A mask with ones at every bit of a field keeps the field. -/
theorem extractLsb'_and_of_allOnes {mask : Word} {start len : Nat}
    (h : mask.extractLsb' start len = BitVec.allOnes len) :
    (op &&& mask).extractLsb' start len = op.extractLsb' start len := by
  rw [BitVec.extractLsb'_and, h, BitVec.and_allOnes]

/-- Under a mask of bits 15:12 and of the low `len` bits a word is told by its class and its low field. -/
theorem and_eq_iff_opClass_low {mask : Word} {len : Nat} (hmask : mask = 0xF000#16 ||| (BitVec.allOnes len).setWidth 16)
    (hclass : opClass mask = BitVec.allOnes 4) (hlow : mask.extractLsb' 0 len = BitVec.allOnes len)
    (hv : v &&& mask = v) :
    op &&& mask = v ↔ opClass op = opClass v ∧ op.extractLsb' 0 len = v.extractLsb' 0 len := by
  constructor
  · rintro rfl
    exact ⟨(extractLsb'_and_of_allOnes hclass).symm, (extractLsb'_and_of_allOnes hlow).symm⟩
  · rintro ⟨hc, hl⟩
    have hsplit (w : Word) : w &&& mask = (opClass w).setWidth 16 <<< 12 ||| (w.extractLsb' 0 len).setWidth 16 := by
      rw [setWidth_opClass_shiftLeft, extractLsb'_zero_setWidth, hmask, BitVec.and_or_distrib_left]
    rw [← hv, hsplit, hsplit, hc, hl]

theorem and_F00F_eq_iff (hv : v &&& 0xF00F#16 = v) :
    op &&& 0xF00F#16 = v ↔ opClass op = opClass v ∧ fieldN op = fieldN v :=
  and_eq_iff_opClass_low rfl rfl rfl hv

theorem and_F0FF_eq_iff (hv : v &&& 0xF0FF#16 = v) :
    op &&& 0xF0FF#16 = v ↔ opClass op = opClass v ∧ fieldNN op = fieldNN v :=
  and_eq_iff_opClass_low rfl rfl rfl hv

/-! ### The rows of a class -/

/-- The rows of R96 whose fixed bits 15:12 are `c`. -/
def rowsOfClass (c : BitVec 4) : List Row := table.filter fun r => opClass r.value == c

/-- Every mask covers bits 15:12, so a word matches only rows of its own class. -/
theorem opClass_of_matches {r : Row} (hr : r ∈ table) (h : op &&& r.mask = r.value) :
    opClass r.value = opClass op := by
  have hmask : ∀ r ∈ table, opClass r.mask = BitVec.allOnes 4 := by decide
  rw [← h]
  exact extractLsb'_and_of_allOnes (hmask r hr)

theorem decode_eq_unmatched_iff : decode op = .error (.unmatched op) ↔ ∀ r ∈ table, op &&& r.mask ≠ r.value := by
  have hnone : decode op = .error (.unmatched op) ↔ findRow op = none := by
    cases hf : findRow op <;> simp [decode, hf]
  rw [hnone, findRow, List.find?_eq_none]
  simp [Row.matches]

/-- A word is rejected exactly when no row of its class matches it. -/
theorem decode_eq_unmatched_iff_rowsOfClass :
    decode op = .error (.unmatched op) ↔ ∀ r ∈ rowsOfClass (opClass op), op &&& r.mask ≠ r.value := by
  simp only [decode_eq_unmatched_iff, rowsOfClass, List.mem_filter, beq_iff_eq, and_imp]
  exact ⟨fun h r hr _ => h r hr, fun h r hr hm => h r hr (opClass_of_matches hr hm) hm⟩

theorem rowsOfClass_0 : rowsOfClass 0x0#4 = [.clr, .rts].map rowOf := by decide
theorem rowsOfClass_5 : rowsOfClass 0x5#4 = [.skre].map rowOf := by decide
theorem rowsOfClass_8 :
    rowsOfClass 0x8#4 = [.move, .or, .and, .xor, .add, .sub, .shr, .subn, .shl].map rowOf := by decide
theorem rowsOfClass_9 : rowsOfClass 0x9#4 = [.skrne].map rowOf := by decide
theorem rowsOfClass_E : rowsOfClass 0xE#4 = [.skpr, .skup].map rowOf := by decide
theorem rowsOfClass_F :
    rowsOfClass 0xF#4 = [.moved, .keyd, .loadd, .loads, .addi, .ldspr, .bcd, .stor, .read].map rowOf := by decide

/-- The classes with illegal words (R98). -/
def partialClasses : List (BitVec 4) := [0x0#4, 0x5#4, 0x8#4, 0x9#4, 0xE#4, 0xF#4]

/-- Every other class has a row that fixes the class alone. -/
theorem exists_fullRow : ∀ c : BitVec 4, c ∉ partialClasses →
    ∃ r ∈ rowsOfClass c, r.mask = 0xF000#16 ∧ r.value = c.setWidth 16 <<< 12 := by decide

/-- The low nibbles of class 8 that R98 lists are those no row of class 8 has. -/
theorem class8_illegal_iff : ∀ n : Nibble, n ∈ [0x8#4, 0x9#4, 0xA#4, 0xB#4, 0xC#4, 0xD#4, 0xF#4] ↔
    n ∉ [0x0#4, 0x1#4, 0x2#4, 0x3#4, 0x4#4, 0x5#4, 0x6#4, 0x7#4, 0xE#4] := by decide

/-! ### The statements -/

theorem opClass_mem_of_illegalWord (h : illegalWord op) : opClass op ∈ partialClasses := by
  simp only [partialClasses, List.mem_cons]
  rcases h with ⟨h, _⟩ | ⟨h, _⟩ | ⟨h, _⟩ | ⟨h, _⟩ | ⟨h, _⟩ | ⟨h, _⟩ <;> simp [h]

theorem decode_eq_unmatched_iff_illegalWord : decode op = .error (.unmatched op) ↔ illegalWord op := by
  rw [decode_eq_unmatched_iff_rowsOfClass]
  by_cases hc : opClass op ∈ partialClasses
  · simp only [partialClasses, List.mem_cons, List.not_mem_nil, or_false] at hc
    rw [illegalWord, class8_illegal_iff]
    rcases hc with hc | hc | hc | hc | hc | hc
    · have hw : op &&& 0xFFFF#16 = op := BitVec.and_allOnes
      simp [hc, rowsOfClass_0, rowOf, hw]
    · simp [hc, rowsOfClass_5, rowOf, and_F00F_eq_iff, opClass, fieldN]
    · simp [hc, rowsOfClass_8, rowOf, and_F00F_eq_iff, opClass, fieldN]
    · simp [hc, rowsOfClass_9, rowOf, and_F00F_eq_iff, opClass, fieldN]
    · simp [hc, rowsOfClass_E, rowOf, and_F0FF_eq_iff, opClass, fieldNN]
    · simp [hc, rowsOfClass_F, rowOf, and_F0FF_eq_iff, opClass, fieldNN]
  · obtain ⟨r, hr, hmask, hvalue⟩ := exists_fullRow _ hc
    have hm : op &&& r.mask = r.value := by rw [hmask, hvalue, setWidth_opClass_shiftLeft]
    exact iff_of_false (fun h => h r hr hm) fun h => hc (opClass_mem_of_illegalWord h)

/-- Settles O6: class by class, with the rows of the class. -/
theorem illegalOpcodesAreRejected : Obligations.IllegalOpcodesAreRejected := fun _ =>
  decode_eq_unmatched_iff_illegalWord

/-- Settles O1: each legal word is the encoding of its instruction; the illegal one is of class 5 with low nibble 1. -/
theorem decodesPrintedWords : Obligations.DecodesPrintedWords :=
  ⟨decode_encode .rts, decode_encode (.load 0xA#4 0x6E#8), decode_encode (.draw 0xA#4 0x6#4 0xE#4),
    decode_encode (.jump 0xABC#12), decode_encode (.shr 0x3#4 0x4#4), decode_encode (.read 0x3#4),
    decode_encode (.skup 0x3#4), decode_eq_unmatched_iff_illegalWord.mpr (.inr (.inl ⟨rfl, by decide⟩))⟩

end Sys2Proof.Machine
end

section
/-! PROOFS. Terms and instructions (spec/30_encoding.md R103, R104): operand values in range are the values of fields, so a well-formed term
is the term of an instruction. -/

open Sys2Proof

namespace Sys2Proof.Machine

/-! ### Values in range are fields (R37, R104) -/

/-- As many operand values as kinds, each within its kind's range. -/
def ValuesOf (ks : List OperandKind) (vs : List Nat) : Prop := vs.length = ks.length ∧ valuesFit ks vs = true

theorem wellFormed_iff (m : Mnemonic) (vs : List Nat) :
    (Term.mk m vs).wellFormed = true ↔ ValuesOf m.operands vs := by
  rw [Term.wellFormed, Bool.and_eq_true, decide_eq_true_eq, Mnemonic.arity, ValuesOf]

theorem ValuesOf.nil {vs : List Nat} (h : ValuesOf [] vs) : vs = [] := List.eq_nil_of_length_eq_zero h.1

theorem ValuesOf.cons {k : OperandKind} {ks : List OperandKind} {vs : List Nat} (h : ValuesOf (k :: ks) vs) :
    ∃ v rest, vs = v :: rest ∧ v < k.bound ∧ ValuesOf ks rest := by
  obtain ⟨hlen, hfit⟩ := h
  cases vs with
  | nil => simp at hlen
  | cons v rest =>
    obtain ⟨hv, hrest⟩ := (valuesFit_cons k ks v rest).mp hfit
    exact ⟨v, rest, rfl, hv, by simpa using hlen, hrest⟩

/-- A first operand in the range of a field of `w` bits is such a field's value. -/
theorem ValuesOf.field {k : OperandKind} {ks : List OperandKind} {vs : List Nat} (h : ValuesOf (k :: ks) vs) (w : Nat)
    (hw : k.bound = 2 ^ w) : ∃ (x : BitVec w) (rest : List Nat), vs = x.toNat :: rest ∧ ValuesOf ks rest := by
  obtain ⟨v, rest, rfl, hv, hrest⟩ := h.cons
  exact ⟨BitVec.ofNatLT v (hw ▸ hv), rest, by simp, hrest⟩

theorem ValuesOf.one {k : OperandKind} {vs : List Nat} (h : ValuesOf [k] vs) (w : Nat) (hw : k.bound = 2 ^ w) :
    ∃ x : BitVec w, vs = [x.toNat] := by
  obtain ⟨x, rest, rfl, hrest⟩ := h.field w hw
  exact ⟨x, by rw [hrest.nil]⟩

theorem ValuesOf.two {k : OperandKind} {vs : List Nat} (h : ValuesOf [.reg, k] vs) (w : Nat) (hw : k.bound = 2 ^ w) :
    ∃ (x : RegIdx) (y : BitVec w), vs = [x.toNat, y.toNat] := by
  obtain ⟨x, rest, rfl, hrest⟩ := h.field 4 rfl
  obtain ⟨y, rfl⟩ := hrest.one w hw
  exact ⟨x, y, rfl⟩

theorem ValuesOf.three {vs : List Nat} (h : ValuesOf [.reg, .reg, .nibble] vs) :
    ∃ (x y : RegIdx) (n : Nibble), vs = [x.toNat, y.toNat, n.toNat] := by
  obtain ⟨x, rest, rfl, hrest⟩ := h.field 4 rfl
  obtain ⟨y, n, rfl⟩ := hrest.two 4 rfl
  exact ⟨x, y, n, rfl⟩

/-! ### Terms of instructions (R103) -/

theorem toInstr_toTerm (i : Instr) : i.toTerm.toInstr = some i := by
  have hwf : i.toTerm.wellFormed = true := i.wellFormed_eq_true
  rw [Term.toInstr, if_pos hwf]
  cases i <;> simp [Instr.toTerm]

theorem toInstr_of_not_wellFormed {t : Term} (h : t.wellFormed = false) : t.toInstr = none :=
  if_neg (by simp [h])

/-- The instruction of a well-formed term stands for it: the values are those of fields, which the instruction holds. -/
theorem exists_toInstr_of_wellFormed {t : Term} (hwf : t.wellFormed = true) : ∃ i, t.toInstr = some i ∧ i.toTerm = t := by
  obtain ⟨m, vs⟩ := t
  have h : ValuesOf m.operands vs := (wellFormed_iff m vs).mp hwf
  cases m
  case clr | rts =>
    obtain rfl := h.nil
    simp [Term.toInstr, hwf, Instr.toTerm]
  case jump | call | loadi | jumpi =>
    obtain ⟨nnn, rfl⟩ := ValuesOf.one (k := .addr) h 12 rfl
    simp [Term.toInstr, hwf, Instr.toTerm]
  case ske | skne | load | addb | rand =>
    obtain ⟨x, nn, rfl⟩ := ValuesOf.two (k := .byte) h 8 rfl
    simp [Term.toInstr, hwf, Instr.toTerm]
  case draw =>
    obtain ⟨x, y, n, rfl⟩ := ValuesOf.three h
    simp [Term.toInstr, hwf, Instr.toTerm]
  case skpr | skup | moved | keyd | loadd | loads | addi | ldspr | bcd | stor | read =>
    obtain ⟨x, rfl⟩ := ValuesOf.one (k := .reg) h 4 rfl
    simp [Term.toInstr, hwf, Instr.toTerm]
  all_goals
    obtain ⟨x, y, rfl⟩ := ValuesOf.two (k := .reg) h 4 rfl
    simp [Term.toInstr, hwf, Instr.toTerm]

/-- Settles O4: fields and values in range correspond, format by format. -/
theorem termsAndInstructionsAgree : Obligations.TermsAndInstructionsAgree :=
  ⟨fun _ => exists_toInstr_of_wellFormed, fun _ => toInstr_of_not_wellFormed, toInstr_toTerm⟩

end Sys2Proof.Machine
end

section
/-! PROOFS. What a step does (spec/40_control_flow.md R120, R122, R129) on a machine that has ended, on a PC outside memory, and on a
word that decodes. -/

open Sys2Proof Sys2Proof.Machine

namespace Sys2Proof.Machine

variable {s : State}

/-- Settles O9: `ended` is the state's latch or its flag, and neither step looks further. -/
theorem endedStepChangesNothing : Obligations.EndedStepChangesNothing := by
  intro e s h
  have hend : s.ended = true := (ended_eq_true_iff s).mpr h
  exact ⟨stepWith_of_ended e hend, step_of_ended hend⟩

/-- The fetch reads PC and memory alone, which the timer phase keeps. -/
theorem fetch_timerPhase (e : Millis) (s : State) : (timerPhase e s).fetch = s.fetch := by
  simp [State.fetch, State.memRead16, State.memRead]

/-- A fault of the fetch is taken in the state before the timer phase. -/
theorem stepWith_of_fetch_error (e : Millis) {f : Fault} (hrun : s.Running) (hf : s.fetch = .error f) :
    stepWith e s = .next (s.raise f) := by
  rw [stepWith_of_running e hrun, fetchExecute_of_fetch_error ((fetch_timerPhase e s).trans hf)]
  exact rollback_some rfl

/-- The cycle on a fetched word that decodes: the instruction after the timer phase, within the rollback. -/
theorem stepWith_of_decode_ok (e : Millis) {op : Word} {i : Instr} (hrun : s.Running) (hf : s.fetch = .ok op)
    (hd : decode op = .ok i) : stepWith e s = rollback s (exec i ((timerPhase e s).setFbu false)) := by
  rw [stepWith_of_running e hrun, fetchExecute_of_decode_ok ((fetch_timerPhase e s).trans hf) hd]

/-- Settles O7: the fetch gives the word at PC, and the rollback keeps the instruction's state exactly when it latches no fault. -/
theorem stepRunsDecodedInstruction : Obligations.StepRunsDecodedInstruction := by
  intro e s i hrun hpc hd
  have hroom : s.pc.toNat + 1 < Config.memSize := by
    rw [show Config.memSize = 4096 from rfl]
    omega
  have hstep := stepWith_of_decode_ok e hrun (s.fetch_ok hroom) hd
  refine ⟨fun t ht hnone => ?_, fun t f ht hsome => ?_⟩
  · rw [hstep, ht, rollback_none hnone]
  · rw [hstep, ht, rollback_some hsome]

/-- Settles O11: the fetch is the word read at PC, whose lowest byte outside memory is the fault. -/
theorem fetchAboveMemoryIsLatched : Obligations.FetchAboveMemoryIsLatched := by
  intro e s hrun hpc
  have hout : Config.memSize ≤ s.pc.toNat + 1 := by
    rw [show Config.memSize = 4096 from rfl]
    omega
  exact stepWith_of_fetch_error e hrun (s.fetch_error hout)

end Sys2Proof.Machine
end

section
/-! PROOFS. Control transfer (spec/40_control_flow.md R125 to R128): the jumps, and CALL and RTS on the stack in memory, each an equation per
branch of its meaning. -/

open Sys2Proof Sys2Proof.Machine

namespace Sys2Proof.Machine

variable {s u : State}

/-! ### JUMP and JUMPI (R125, R128) -/

theorem fetch_eq_error_iff (s : State) : (∃ f, s.fetch = .error f) ↔ Config.memSize ≤ s.pc.toNat + 1 := by
  constructor
  · rintro ⟨f, hf⟩
    by_contra hroom
    rw [s.fetch_ok (by omega)] at hf
    cases hf
  · exact fun hout => ⟨_, s.fetch_error hout⟩

/-- Settles O30: an address has 12 bits, so that only 0xFFF leaves no room for the fetch of two bytes. -/
theorem jumpSetsPc : Obligations.JumpSetsPc := by
  refine ⟨rfl, fun nnn s => ⟨s.setPc (addrOperand nnn), rfl, State.addrOperand_toNat nnn, rfl, fun _ => rfl, ?_⟩⟩
  rw [fetch_eq_error_iff, State.setPc_pc, State.addrOperand_toNat, show Config.memSize = 4096 from rfl]
  bv_omega

/-- Settles O31: a 12-bit address and a byte have an exact sum in 16 bits. -/
theorem jumpiAddsV0 : Obligations.JumpiAddsV0 := by
  refine fun nnn s => ⟨s.setPc (addrOperand nnn + s.regOperand16 0#4), rfl, ?_, rfl, fun _ => rfl⟩
  have hv : (s.regOperand16 0#4).toNat = (s.getV 0#4).toNat := BitVec.toNat_setWidth_of_le (by decide)
  have haddr := nnn.isLt
  have hbyte := (s.getV 0#4).isLt
  rw [State.setPc_pc, BitVec.toNat_add, State.addrOperand_toNat, hv]
  exact Nat.mod_eq_of_lt (by omega)

/-! ### Two bytes stored (R62) -/

namespace Memory

variable {m : Memory} {a : Nat}

theorem readByte_storeBytes_pair (hm : m.wf = true) (ha : a + 1 < Config.memSize) (b c : Byte) :
    (m.storeBytes a [b, c]).readByte a = b ∧ (m.storeBytes a [b, c]).readByte (a + 1) = c :=
  ⟨readByte_storeBytes_inside [b, c] (k := 0) hm ha Nat.zero_lt_two,
    readByte_storeBytes_inside [b, c] (k := 1) hm ha Nat.one_lt_two⟩

theorem readByte_storeBytes_pair_outside (m : Memory) {x : Nat} (hx : x < a ∨ a + 2 ≤ x) (b c : Byte) :
    (m.storeBytes a [b, c]).readByte x = m.readByte x :=
  readByte_storeBytes_outside [b, c] m hx

end Memory

/-! ### CALL (R126) -/

theorem exec_call_of_room (nnn : Addr) (hroom : s.sp.toNat + 2 ≤ maxStack.toNat) :
    exec (.call nnn) s = .next (((s.setMem (Memory.storeBytes s.mem s.sp.toNat [hiByte s.pc, loByte s.pc])).setSp
      (s.sp + 2#16)).setPc (addrOperand nnn)) :=
  congrArg (complete s) (callSub_ok s nnn hroom)

theorem pushed_in_memory (hroom : s.sp.toNat + 2 ≤ maxStack.toNat) : s.sp.toNat + 1 < Config.memSize := by
  have hmax : maxStack.toNat = 3839 := rfl
  have hsize : Config.memSize = 4096 := rfl
  omega

/-- A CALL with room puts its own address in the slot at the old SP. -/
theorem exec_call_wordIn {nnn : Addr} {t : State} (hm : s.MemOk) (hroom : s.sp.toNat + 2 ≤ maxStack.toNat)
    (h : exec (.call nnn) s = .next t) : wordIn t s.sp.toNat = s.pc := by
  rw [exec_call_of_room nnn hroom] at h
  cases h
  obtain ⟨hhi, hlo⟩ := Memory.readByte_storeBytes_pair hm (pushed_in_memory hroom) (hiByte s.pc) (loByte s.pc)
  exact (congrArg₂ wordOfBytes hhi hlo).trans (wordOfBytes_hiByte_loByte s.pc)

/-- A CALL with room moves SP up by one slot, without wrapping. -/
theorem toNat_sp_add_two (hroom : s.sp.toNat + 2 ≤ maxStack.toNat) : (s.sp + 2#16).toNat = s.sp.toNat + 2 := by
  have hmax : maxStack.toNat = 3839 := rfl
  bv_omega

/-- Settles O32: the state CALL leaves, read field by field; its memory differs in the pushed slot alone. -/
theorem callPushesItsAddress : Obligations.CallPushesItsAddress := by
  intro nnn s hm hroom
  have hexec := exec_call_of_room nnn hroom
  exact ⟨_, hexec, State.addrOperand_toNat nnn, toNat_sp_add_two hroom, exec_call_wordIn hm hroom hexec,
    fun _ ha => Memory.readByte_storeBytes_pair_outside s.mem ha _ _, rfl⟩

/-- Settles O33: the test of CALL fails before the push. -/
theorem callOverflowIsLatched : Obligations.CallOverflowIsLatched := fun nnn s hfull =>
  congrArg (complete s) (callSub_error s nnn hfull)

/-! ### RTS (R127) -/

theorem exec_rts_of_sentinel (hm : (popSlot s).toNat + 1 < Config.memSize)
    (hend : popSlot s = minStack ∧ wordIn s (popSlot s).toNat = 0#16) :
    exec .rts s = .next (s.setFinished.setSp (popSlot s)) :=
  congrArg (complete s) (returnSub_finish s hm hend)

theorem exec_rts_of_entry (hm : (popSlot s).toNat + 1 < Config.memSize)
    (hentry : ¬ (popSlot s = minStack ∧ wordIn s (popSlot s).toNat = 0#16)) :
    exec .rts s = .next (((s.setMem (Memory.storeBytes s.mem (popSlot s).toNat [0#8, 0#8])).setSp (popSlot s)).setPc
      (wordIn s (popSlot s).toNat + 2#16)) :=
  congrArg (complete s) (returnSub_return s hm hentry)

/-- Settles O34: the statement's slot is the popped slot; the sentinel ends the run, any other entry is returned to and cleared. -/
theorem rtsReturnsOrFinishes : Obligations.RtsReturnsOrFinishes := by
  intro s slot hm hs hslot
  obtain rfl : slot = (popSlot s).toNat := hslot.trans (popSlot_toNat hs).symm
  have hroom := popSlot_in_memory hs
  rw [BitVec.toNat_inj]
  refine ⟨fun hend => ?_, fun hentry => ?_⟩
  · exact ⟨_, exec_rts_of_sentinel hroom hend, rfl, hend.1, rfl, rfl, fun _ => rfl⟩
  · obtain ⟨hhi, hlo⟩ := Memory.readByte_storeBytes_pair hm hroom 0#8 0#8
    exact ⟨_, exec_rts_of_entry hroom hentry, rfl, rfl, hhi, hlo,
      fun _ ha => Memory.readByte_storeBytes_pair_outside s.mem ha _ _, rfl⟩

/-! ### CALL, then RTS (C5) -/

/-- RTS pops the slot that a CALL with room has pushed. -/
theorem popSlot_of_pushed (hlow : minStack.toNat ≤ s.sp.toNat) (hroom : s.sp.toNat + 2 ≤ maxStack.toNat)
    (hsp : u.sp = s.sp + 2#16) : popSlot u = s.sp := by
  have htop : u.sp.toNat = s.sp.toNat + 2 := hsp ▸ toNat_sp_add_two hroom
  rw [popSlot, if_pos (by omega), hsp, BitVec.add_sub_cancel]

/-- Settles O35: RTS pops the slot CALL pushed, and finds there the CALL's address, which is not the sentinel of the empty stack. -/
theorem callThenReturnResumes : Obligations.CallThenReturnResumes := by
  intro nnn s t u hm hs hroom hsentinel hcall _ hsp hwindow
  obtain ⟨hlow, hhigh, _⟩ := hs
  have hword : wordIn u s.sp.toNat = s.pc := calc
    wordIn u s.sp.toNat = wordIn t s.sp.toNat :=
      congrArg₂ wordOfBytes (hwindow _ hlow (by omega)) (hwindow _ (by omega) hhigh)
    _ = s.pc := exec_call_wordIn hm hroom hcall
  have hpop : popSlot u = s.sp := by
    rw [exec_call_of_room nnn hroom] at hcall
    cases hcall
    exact popSlot_of_pushed hlow hroom hsp
  have hslot : (popSlot u).toNat + 1 < Config.memSize := hpop.symm ▸ pushed_in_memory hroom
  have hentry : ¬ (popSlot u = minStack ∧ wordIn u (popSlot u).toNat = 0#16) := by rwa [hpop, hword]
  refine ⟨_, exec_rts_of_entry hslot hentry, ?_, hpop, rfl⟩
  rw [State.setPc_pc, hpop, hword]

end Sys2Proof.Machine
end

section
/-! PROOFS. The four skips (spec/41_skips.md R140 to R143): they share one move of PC, and the register forms leave low nibbles illegal. -/

open Sys2Proof Sys2Proof.Machine

namespace Sys2Proof.Machine

/-- R98: in classes 5 and 9 only the low nibble 0 names an instruction. -/
theorem decode_unmatched_of_skip_nibble {op : Word} (hclass : opClass op = 0x5#4 ∨ opClass op = 0x9#4)
    (hn : fieldN op ≠ 0#4) : decode op = .error (.unmatched op) := by
  rw [decode_eq_unmatched_iff_illegalWord]
  obtain h5 | h9 := hclass
  · exact .inr (.inl ⟨h5, hn⟩)
  · exact .inr (.inr (.inr (.inl ⟨h9, hn⟩)))

/-- A skip whose test is true under `P` and false under `Q` moves PC by 4 or 2 accordingly, and writes nothing else. -/
theorem skipIf_moves_pc {P Q : Prop} {c : Bool} (s : State) (hskip : P → c = true) (hnext : Q → c = false) :
    (P → (s.skipIf c).pc = s.pc + 4#16) ∧ (Q → (s.skipIf c).pc = s.pc + 2#16) ∧
      { s.skipIf c with pc := s.pc } = s ∧ ∀ a, (s.skipIf c).byteAt a = s.byteAt a := by
  refine ⟨fun h => ?_, fun h => ?_, ?_, fun a => State.byteAt_skipIf s c a⟩
  · simp [hskip h]
  · simp [hnext h]
  · rw [skipIf_eq_setPc]
    rfl

/-- Settles O29: each skip is `skipIf` on its own test, and R98 lists the low nibbles that the register forms leave. -/
theorem skipsCompare : Obligations.SkipsCompare := by
  refine ⟨rfl, rfl, rfl, rfl, fun _ => decode_unmatched_of_skip_nibble, fun x y nn s => ⟨?ske, ?skne, ?skre, ?skrne⟩⟩
  case ske | skre => exact ⟨_, rfl, skipIf_moves_pc s beq_iff_eq.mpr beq_eq_false_iff_ne.mpr⟩
  case skne | skrne => exact ⟨_, rfl, skipIf_moves_pc s bne_iff_ne.mpr bne_eq_false_iff_eq.mpr⟩

end Sys2Proof.Machine
end

section
/-! PROOFS. Load, move, logic and arithmetic (spec/42_alu.md R150 to R160): what a register write followed by `next` does and leaves
unchanged, said once for a result without a flag and once for a result with its flag in VF, and the value of each flag. -/

open Sys2Proof Sys2Proof.Machine

namespace Sys2Proof.Machine

/-! ### A result without a flag (R150 to R155) -/

/-- A register write followed by `next` changes that register and PC, and nothing else. -/
theorem setV_advance_frame (x : RegIdx) (b : Byte) (s : State) :
    (∀ y, y ≠ x → (s.setV x b).advance.getV y = s.getV y) ∧ (s.setV x b).advance.pc = s.pc + 2#16 ∧
      { (s.setV x b).advance with v := s.v, pc := s.pc } = s ∧ ∀ a, (s.setV x b).advance.byteAt a = s.byteAt a :=
  ⟨fun _ h => State.getV_setV_other s h b, rfl, rfl, fun _ => rfl⟩

/-- A register write followed by `next` leaves the value written in the register. -/
theorem getV_setV_advance (x : RegIdx) (b : Byte) (s : State) : (s.setV x b).advance.getV x = b := State.getV_setV_same s x b

/-- Settles O23: LOAD is the register write of its literal. -/
theorem loadImmediate : Obligations.LoadImmediate :=
  ⟨rfl, fun x nn s => ⟨_, rfl, getV_setV_advance x nn s, setV_advance_frame x nn s⟩⟩

/-- Settles O24: ADDB is the register write of the sum, which a byte holds modulo 256. -/
theorem addImmediateSetsNoFlag : Obligations.AddImmediateSetsNoFlag := by
  refine fun x nn s => ⟨_, rfl, ?sum, setV_advance_frame x (s.getV x + nn) s⟩
  case sum => rw [getV_setV_advance, BitVec.toNat_add]

/-- Settles O25: each of the four is the register write of its result, and the logical operations act bit by bit. -/
theorem moveAndLogic : Obligations.MoveAndLogic := by
  refine fun x y s => ⟨⟨_, rfl, getV_setV_advance x (s.getV y) s, setV_advance_frame x (s.getV y) s⟩,
    ⟨_, rfl, fun k _ => ?or, setV_advance_frame x (s.getV x ||| s.getV y) s⟩,
    ⟨_, rfl, fun k _ => ?and, setV_advance_frame x (s.getV x &&& s.getV y) s⟩,
    ⟨_, rfl, fun k _ => ?xor, setV_advance_frame x (s.getV x ^^^ s.getV y) s⟩⟩
  case or => rw [getV_setV_advance, BitVec.getLsbD_or]
  case and => rw [getV_setV_advance, BitVec.getLsbD_and]
  case xor => rw [getV_setV_advance, BitVec.getLsbD_xor]

/-! ### A result with its flag (R156 to R158, R160) -/

/-- A result and its flag followed by `next` change that register, VF and PC, and nothing else. -/
theorem setResultFlag_advance_frame (x : RegIdx) (b c : Byte) (s : State) :
    (∀ z, z ≠ x → z ≠ VF → (s.setResultFlag x b c).advance.getV z = s.getV z) ∧
      (s.setResultFlag x b c).advance.pc = s.pc + 2#16 ∧
      { (s.setResultFlag x b c).advance with v := s.v, pc := s.pc } = s ∧
      ∀ a, (s.setResultFlag x b c).advance.byteAt a = s.byteAt a :=
  ⟨fun _ hx hf => State.getV_setResultFlag_other s hx hf b c, rfl, rfl, fun _ => rfl⟩

/-- A result of value `n` and a flag that is 1 under `P` and 0 under `Q`, followed by `next`: the flag is in VF whatever the destination
(R160), the result in any destination but VF, and nothing else changes but PC. -/
theorem setResultFlag_advance_writes {P Q : Prop} {n : Nat} {b c : Byte} (x : RegIdx) (s : State) (hresult : b.toNat = n)
    (hone : P → c = 1#8) (hzero : Q → c = 0#8) :
    (x ≠ VF → ((s.setResultFlag x b c).advance.getV x).toNat = n) ∧
      (P → (s.setResultFlag x b c).advance.getV VF = 1#8) ∧ (Q → (s.setResultFlag x b c).advance.getV VF = 0#8) ∧
      (∀ z, z ≠ x → z ≠ VF → (s.setResultFlag x b c).advance.getV z = s.getV z) ∧
      (s.setResultFlag x b c).advance.pc = s.pc + 2#16 ∧
      { (s.setResultFlag x b c).advance with v := s.v, pc := s.pc } = s ∧
      ∀ a, (s.setResultFlag x b c).advance.byteAt a = s.byteAt a := by
  refine ⟨fun hx => ?result, fun h => ?one, fun h => ?zero, setResultFlag_advance_frame x b c s⟩
  case result => rw [State.getV_advance, State.getV_setResultFlag_result s hx, hresult]
  case one => rw [State.getV_advance, State.getV_setResultFlag_flag, hone h]
  case zero => rw [State.getV_advance, State.getV_setResultFlag_flag, hzero h]

theorem carryFlag_of_gt {a b : Byte} (h : a.toNat + b.toNat > 255) : carryFlag a b = 1#8 := if_pos (decide_eq_true h)

theorem carryFlag_of_le {a b : Byte} (h : a.toNat + b.toNat ≤ 255) : carryFlag a b = 0#8 :=
  if_neg (by rw [decide_eq_true_iff]; omega)

theorem noBorrowFlag_of_le {a b : Byte} (h : b.toNat ≤ a.toNat) : noBorrowFlag a b = 1#8 := if_pos (decide_eq_true h)

theorem noBorrowFlag_of_lt {a b : Byte} (h : a.toNat < b.toNat) : noBorrowFlag a b = 0#8 :=
  if_neg (by rw [decide_eq_true_iff]; omega)

/-- The difference of two bytes modulo 256, written so that the subtraction of naturals is exact. -/
theorem toNat_sub_byte (a b : Byte) : (a - b).toNat = (a.toNat + 256 - b.toNat) % 256 := by
  have hb := b.isLt
  rw [BitVec.toNat_sub]
  omega

/-- Settles O26: ADD writes the sum, with the carry as its flag. -/
theorem addSetsCarry : Obligations.AddSetsCarry :=
  ⟨rfl, fun x _ s => ⟨_, rfl, setResultFlag_advance_writes x s (BitVec.toNat_add _ _) carryFlag_of_gt carryFlag_of_le⟩⟩

/-- Settles O27: SUB and SUBN write a difference, with no borrow as its flag; the operands are exchanged between the two. -/
theorem subtractSetsNoBorrow : Obligations.SubtractSetsNoBorrow := by
  refine ⟨rfl, rfl, fun x y s => ⟨⟨_, rfl, ?sub⟩, ⟨_, rfl, ?subn⟩⟩⟩
  case sub | subn => exact setResultFlag_advance_writes x s (toNat_sub_byte _ _) noBorrowFlag_of_le noBorrowFlag_of_lt

end Sys2Proof.Machine
end

section
/-! PROOFS. Shifts (spec/43_shifts.md R170, R171): the value of the bit shifted out, and both shifts as a result with its flag. -/

open Sys2Proof Sys2Proof.Machine

namespace Sys2Proof.Machine

/-! ### The bit shifted out -/

theorem toNat_flagByte (c : Bool) : (flagByte c).toNat = c.toNat := by cases c <;> rfl

/-- Bit 0 of a byte is its remainder by 2. -/
theorem toNat_shiftedOutRight (b : Byte) : (shiftedOutRight b).toNat = b.toNat % 2 := by
  rw [shiftedOutRight, toNat_flagByte, ← BitVec.testBit_toNat, Nat.toNat_testBit, pow_zero, Nat.div_one]

/-- Bit 7 of a byte is its quotient by 128, which is below 2. -/
theorem toNat_shiftedOutLeft (b : Byte) : (shiftedOutLeft b).toNat = b.toNat / 128 := by
  have hb := b.isLt
  rw [shiftedOutLeft, toNat_flagByte, ← BitVec.testBit_toNat, Nat.toNat_testBit]
  omega

/-! ### The shifted value -/

theorem toNat_shiftRight_one (b : Byte) : (b >>> 1).toNat = b.toNat / 2 := by
  rw [BitVec.toNat_ushiftRight, Nat.shiftRight_one]

theorem toNat_shiftLeft_one (b : Byte) : (b <<< 1).toNat = b.toNat * 2 % 256 := by
  rw [BitVec.toNat_shiftLeft, Nat.shiftLeft_eq, pow_one]

/-! ### The statement -/

/-- A result of value `n` and a flag of value `m`, followed by `next`: the flag is in VF whatever the destination (R160), the result in any
destination but VF. -/
theorem setResultFlag_advance_values {n m : Nat} {b c : Byte} (x : RegIdx) (s : State) (hresult : b.toNat = n) (hflag : c.toNat = m) :
    (x ≠ VF → ((s.setResultFlag x b c).advance.getV x).toNat = n) ∧ ((s.setResultFlag x b c).advance.getV VF).toNat = m := by
  refine ⟨fun hx => ?result, ?flag⟩
  case result => rw [State.getV_advance, State.getV_setResultFlag_result s hx, hresult]
  case flag => rw [State.getV_advance, State.getV_setResultFlag_flag, hflag]

/-- Settles O28: each shift writes half or twice the source's old value, with the bit shifted out as its flag. -/
theorem shiftsUseSourceRegister : Obligations.ShiftsUseSourceRegister := by
  refine ⟨rfl, rfl, fun x y s => ⟨⟨_, rfl, ?shr⟩, ⟨_, rfl, ?shl⟩⟩⟩
  case shr =>
    obtain ⟨hresult, hflag⟩ := setResultFlag_advance_values x s (toNat_shiftRight_one (s.getV y)) (toNat_shiftedOutRight (s.getV y))
    exact ⟨hresult, hflag, setResultFlag_advance_frame x _ _ s⟩
  case shl =>
    obtain ⟨hresult, hflag⟩ := setResultFlag_advance_values x s (toNat_shiftLeft_one (s.getV y)) (toNat_shiftedOutLeft (s.getV y))
    exact ⟨hresult, hflag, setResultFlag_advance_frame x _ _ s⟩

end Sys2Proof.Machine
end

section
/-! PROOFS. The random generator (spec/44_random.md R180 to R182): the two sources of RAND's byte, and that no other instruction draws. -/

open Sys2Proof Sys2Proof.Machine

namespace Sys2Proof.Machine

variable {s t : State} {i : Instr}

/-! ### RAND, with a seed and without (R180, R181) -/

theorem exec_rand_of_seed {seed : Int} (hseed : s.rngSeed = some seed) (x : RegIdx) (nn : Byte) :
    exec (.rand x nn) s = .next (s.countRand.setV x (generator seed s.rngCount &&& nn)).advance := by
  rw [exec, execRand, randomByte, hseed]

theorem exec_rand_of_no_seed (hseed : s.rngSeed = none) (x : RegIdx) (nn : Byte) :
    exec (.rand x nn) s = .next (s.countRand.countFree.setV x (Config.freeByte s.freeCount &&& nn)).advance := by
  rw [exec, execRand, randomByte, hseed]

theorem exec_rand_rngCount {x : RegIdx} {nn : Byte} (h : exec (.rand x nn) s = .next t) : t.rngCount = s.rngCount + 1 := by
  cases hseed : s.rngSeed with
  | none => rw [exec_rand_of_no_seed hseed] at h; cases h; rfl
  | some seed => rw [exec_rand_of_seed hseed] at h; cases h; rfl

/-- Settles O36: each of the two sources gives a register write of the masked byte, on a state that differs in the counters alone. -/
theorem randMasksTheDraw : Obligations.RandMasksTheDraw := by
  intro x nn s
  cases hseed : s.rngSeed with
  | none =>
    refine ⟨_, exec_rand_of_no_seed hseed x nn, ?seeded, ?free, ?others, rfl, rfl, rfl, fun _ => rfl⟩
    case seeded => intro seed h; cases h
    case free => exact fun _ => ⟨getV_setV_advance x _ s.countRand.countFree, rfl⟩
    case others => exact (setV_advance_frame x _ s.countRand.countFree).1
  | some seed =>
    refine ⟨_, exec_rand_of_seed hseed x nn, ?seeded, ?free, ?others, rfl, rfl, rfl, fun _ => rfl⟩
    case seeded => rintro _ ⟨⟩; exact ⟨getV_setV_advance x _ s.countRand, rfl⟩
    case free => intro h; cases h
    case others => exact (setV_advance_frame x _ s.countRand).1

/-! ### The pinned pair (R182) -/

theorem generator_pinned : generator 123 0 = 3#8 := if_pos ⟨rfl, rfl⟩

/-- Settles O37: the first draw is the pinned value, which the mask 0xFF keeps. -/
theorem pinnedSeedGivesThree : Obligations.PinnedSeedGivesThree := by
  refine ⟨generator_pinned, fun s hseed hcount => ⟨_, exec_rand_of_seed hseed 0#4 0xFF#8, ?_⟩⟩
  rw [getV_setV_advance, hcount, generator_pinned]
  rfl

/-! ### Who draws, and who seeds (R181) -/

namespace Effect

theorem rngSeed_eq (h : Effect s i t) : t.rngSeed = s.rngSeed := by cases h <;> simp

theorem draws_eq (h : Effect s i t) (hw : ∀ x nn, i ≠ .rand x nn) : t.rngCount = s.rngCount ∧ t.freeCount = s.freeCount := by
  cases h
  case drawsSeeded x nn b hi | drawsFree x nn b hi => exact absurd hi (hw x nn)
  all_goals simp

end Effect

/-- Settles O19: no shape of `Effect` writes the seed, and the two that count a draw are RAND's. -/
theorem onlyRandAdvancesGenerator : Obligations.OnlyRandAdvancesGenerator := by
  intro i s t h
  refine ⟨(exec_effect h).rngSeed_eq, ?rand, fun hother => ?other⟩
  case rand =>
    rintro ⟨x, nn, rfl⟩
    exact exec_rand_rngCount h
  case other => exact (exec_effect h).draws_eq fun x nn hi => hother ⟨x, nn, hi⟩

end Sys2Proof.Machine
end

section
/-! PROOFS. Display (spec/45_display.md R190 to R195): the sprite of the XOR blit is the sprite of the statements, DRAW inside memory is one
blit, and a blit undoes itself. -/

open Sys2Proof Sys2Proof.Machine

namespace Sys2Proof.Machine

variable {s t : State} {x y : RegIdx} {n : Nibble}

/-! ### CLR and LDSPR (R190, R195) -/

/-- Settles O38: the frame buffer CLR leaves is the clear one, and the other fields are its equation's. -/
theorem clrClearsFrameBuffer : Obligations.ClrClearsFrameBuffer := fun _ =>
  ⟨_, rfl, FrameBuffer.pixel_clear, rfl, rfl, rfl, fun _ => rfl⟩

/-- The sixteen glyphs lie far below the end of the address space: the sum does not wrap. -/
theorem toNat_glyphAddr (d : Nibble) : (glyphAddr d).toNat = fontBase.toNat + 5 * d.toNat := by
  have hd := d.isLt
  have hbase : fontBase.toNat = 0 := rfl
  rw [glyphAddr, BitVec.toNat_add, BitVec.toNat_ofNat, hbase, show glyphBytes = 5 from rfl]
  omega

/-- Settles O41: I is the address of the glyph of the low nibble. -/
theorem ldsprPointsAtGlyph : Obligations.LdsprPointsAtGlyph := by
  refine fun x s => ⟨_, rfl, ?glyph, rfl, rfl, fun _ => rfl⟩
  case glyph => rw [State.advance_i, State.setI_i, toNat_glyphAddr, BitVec.extractLsb'_toNat, Nat.shiftRight_zero]

/-! ### The sprite DRAW reads (R191, R192) -/

/-- Row `k` of the sprite is the byte at I + k; below its last row a sprite has no bits. -/
theorem spriteOf_getD (s : State) (n : Nibble) (k : Nat) :
    (spriteOf s n).getD k 0#8 = if k < n.toNat then s.byteAt (s.i.toNat + k) else 0#8 := by
  by_cases hk : k < n.toNat <;> simp [spriteOf, List.getD_eq_getElem?_getD, hk]

/-- The bit of the sprite read that lies over a target is the one the statements name. -/
theorem spriteCovers_spriteOf (s : State) (n : Nibble) (x0 y0 px py : Nat) :
    spriteCovers (spriteOf s n) x0 y0 px py = spriteSets s n x0 y0 px py := by
  rw [spriteCovers, spriteSets, spriteOf_getD]
  by_cases hover : y0 ≤ py ∧ py < y0 + n.toNat ∧ x0 ≤ px ∧ px ≤ x0 + 7
  · obtain ⟨htop, hbottom, hleft, hright⟩ := hover
    have hrow : py - y0 < n.toNat := by omega
    have hcol : px - x0 ≤ 7 := by omega
    rw [if_pos hrow, spriteBit, decide_eq_true hcol]
    simp only [htop, hbottom, hleft, hright, and_self, decide_true, Bool.true_and]
  · rw [decide_eq_false hover, Bool.false_and, ← Bool.not_eq_true]
    simp only [Bool.and_eq_true, decide_eq_true_eq]
    rintro ⟨⟨htop, hleft⟩, hset⟩
    have hcol : px - x0 ≤ 7 := spriteBit_le hset
    by_cases hrow : py - y0 < n.toNat
    · exact hover ⟨htop, by omega, hleft, by omega⟩
    · rw [if_neg hrow, spriteBit_zero] at hset
      cases hset

/-! ### DRAW inside memory is one blit (R191, R194) -/

/-- The frame buffer and the collision flag DRAW leaves. -/
def drawnSprite (s : State) (x y : RegIdx) (n : Nibble) : FrameBuffer × Bool :=
  blitRows (spriteOf s n) (s.getV x).toNat (s.getV y).toNat (s.fb, false)

theorem exec_draw_of_fits (hfit : n = 0#4 ∨ s.i.toNat + n.toNat ≤ Config.memSize) :
    exec (.draw x y n) s = .next (((s.setFb (drawnSprite s x y n).1).setV VF
      (collisionFlag (drawnSprite s x y n).2)).setFbu true).advance :=
  congrArg (complete s) (drawSprite_ok s x y n hfit)

theorem drawnSprite_pixel {px py : Nat} (hin : inFrame px py = true) : (drawnSprite s x y n).1.pixel px py =
    (s.fb.pixel px py ^^ spriteSets s n (s.getV x).toNat (s.getV y).toNat px py) := by
  rw [drawnSprite, blitRows_pixel _ _ _ _ hin, spriteCovers_spriteOf]

theorem drawnSprite_hit_iff : (drawnSprite s x y n).2 = true ↔ ∃ px py, inFrame px py = true ∧
    spriteSets s n (s.getV x).toNat (s.getV y).toNat px py = true ∧ s.fb.pixel px py = true := by
  rw [drawnSprite, blitRows_hit]
  simp only [Bool.false_eq_true, false_or, spriteCovers_spriteOf]

theorem collisionFlag_true : collisionFlag true = 1#8 := rfl

theorem collisionFlag_false : collisionFlag false = 0#8 := rfl

theorem inFrame_iff_le {px py : Nat} : inFrame px py = true ↔ px ≤ 63 ∧ py ≤ 31 := by
  rw [inFrame_iff]
  omega

/-- Settles O39: the pixels and the hit of the blit, read off the state DRAW leaves; VF is written after the coordinates are read. -/
theorem drawXorsSprite : Obligations.DrawXorsSprite := by
  intro x y n s hfit
  refine ⟨_, exec_draw_of_fits hfit, fun px py hx hy => ?pixels, ?hit, fun hclear => ?miss, fun z hz => ?others,
    rfl, rfl, rfl, fun _ => rfl⟩
  case pixels => exact drawnSprite_pixel (inFrame_iff_le.mpr ⟨hx, hy⟩)
  case hit =>
    rintro ⟨px, py, hx, hy, hset, hone⟩
    have hhit : (drawnSprite s x y n).2 = true :=
      drawnSprite_hit_iff.mpr ⟨px, py, inFrame_iff_le.mpr ⟨hx, hy⟩, hset, hone⟩
    rw [State.getV_advance, State.getV_setFbu, State.getV_setV_same, hhit, collisionFlag_true]
  case miss =>
    have hmiss : (drawnSprite s x y n).2 = false := by
      rw [← Bool.not_eq_true, drawnSprite_hit_iff]
      rintro ⟨px, py, hin, hset, hone⟩
      obtain ⟨hx, hy⟩ := inFrame_iff_le.mp hin
      rw [hclear px py hx hy hset] at hone
      cases hone
    rw [State.getV_advance, State.getV_setFbu, State.getV_setV_same, hmiss, collisionFlag_false]
  case others => exact State.getV_setV_other _ hz _

/-! ### DRAW twice (R194) -/

/-- A blit undoes itself: each pixel is XORed twice with one bit. -/
theorem blitRows_twice (sprite : List Byte) (x0 y0 : Nat) (fb : FrameBuffer) :
    (blitRows sprite x0 y0 ((blitRows sprite x0 y0 (fb, false)).1, false)).1 = fb := by
  refine FrameBuffer.ext_pixel fun px py hin => ?_
  rw [blitRows_pixel _ _ _ _ hin, blitRows_pixel _ _ _ _ hin, Bool.xor_assoc, Bool.xor_self, Bool.xor_false]

/-- A DRAW that latches no fault has its whole sprite inside memory. -/
theorem draw_fits_of_no_fault (h : exec (.draw x y n) s = .next t) (hnone : t.fault = none) :
    n = 0#4 ∨ s.i.toNat + n.toNat ≤ Config.memSize := by
  by_contra hout
  rw [not_or, not_le] at hout
  obtain ⟨hn, hbeyond⟩ := hout
  have hexec : exec (.draw x y n) s = .next (s.raise (.addressOutOfRange (max s.i.toNat Config.memSize))) :=
    congrArg (complete s) (drawSprite_error s x y n hn hbeyond)
  rw [hexec] at h
  cases h
  cases hnone

/-- What the first DRAW leaves for the second: the blitted frame buffer, the sprite, and the coordinates. -/
theorem exec_draw_keeps_sprite (hfit : n = 0#4 ∨ s.i.toNat + n.toNat ≤ Config.memSize)
    (h : exec (.draw x y n) s = .next t) :
    t.fb = (drawnSprite s x y n).1 ∧ t.i = s.i ∧ spriteOf t n = spriteOf s n ∧ ∀ z, z ≠ VF → t.getV z = s.getV z := by
  rw [exec_draw_of_fits hfit] at h
  cases h
  exact ⟨rfl, rfl, rfl, fun _ hz => State.getV_setV_other _ hz _⟩

/-- Settles O40: the first DRAW leaves the sprite and its coordinates as they were, so that the second repeats its blit. -/
theorem drawTwiceRestores : Obligations.DrawTwiceRestores := by
  intro x y n s t u hx hy _ hfirst hnone hsecond
  have hfit := draw_fits_of_no_fault hfirst hnone
  obtain ⟨hfb, hi, hsprite, hreg⟩ := exec_draw_keeps_sprite hfit hfirst
  obtain ⟨hfb', _⟩ := exec_draw_keeps_sprite (hi ▸ hfit) hsecond
  rw [hfb', drawnSprite, hsprite, hreg x hx, hreg y hy, hfb, drawnSprite, blitRows_twice]

end Sys2Proof.Machine
end

section
/-! PROOFS. The delay timer (spec/46_timers.md R210 to R212): the timer phase of a running timer is one write of DT and DTacc, saturating or
exact, and MOVED and LOADD are one register write and one timer write. -/

open Sys2Proof Sys2Proof.Machine

namespace Sys2Proof.Machine

variable {s : State} {e : Millis}

/-! ### The timer phase (R210) -/

theorem setTimer_frame (s : State) (d : Byte) (acc : Rat) : { s.setTimer d acc with dt := s.dt, dtAcc := s.dtAcc } = s := rfl

theorem timerPhase_frame (e : Millis) (s : State) : { timerPhase e s with dt := s.dt, dtAcc := s.dtAcc } = s := by
  rcases timerPhase_cases e s with ⟨_, hs⟩ | ⟨_, _, hs⟩ | ⟨_, _, hs⟩
  · rw [hs]
  · rw [hs, setTimer_frame]
  · rw [hs, setTimer_frame]

theorem timerPhase_of_stopped (hdt : s.dt = 0#8) : timerPhase e s = s := if_pos hdt

theorem timerPhase_of_dt_le_ticks (hdt : s.dt ≠ 0#8) (hle : s.dt.toNat ≤ wholeTicks (s.dtAcc + millisValue e)) :
    timerPhase e s = s.setTimer 0#8 0 := (if_neg hdt).trans (if_pos hle)

theorem timerPhase_of_ticks_lt_dt (hdt : s.dt ≠ 0#8) (hlt : wholeTicks (s.dtAcc + millisValue e) < s.dt.toNat) :
    timerPhase e s = s.setTimer (s.dt - BitVec.ofNat 8 (wholeTicks (s.dtAcc + millisValue e)))
      (s.dtAcc + millisValue e - wholeTicks (s.dtAcc + millisValue e) * timerPeriod) :=
  (if_neg hdt).trans (if_neg (not_le.mpr hlt))

/-- A byte counts down exactly by any number below it. -/
theorem toNat_sub_ofNat_of_lt {d : Byte} {n : Nat} (h : n < d.toNat) : (d - BitVec.ofNat 8 n).toNat = d.toNat - n := by
  have hn : (BitVec.ofNat 8 n).toNat = n := (BitVec.toNat_ofNat ..).trans (Nat.mod_eq_of_lt (h.trans d.isLt))
  rw [BitVec.toNat_sub_of_le (by rw [BitVec.le_def, hn]; exact h.le), hn]

/-- Settles O43: the n of the statement is `wholeTicks` of the accumulated time, which the two inequalities hold between. -/
theorem timerPhaseDecays : Obligations.TimerPhaseDecays := by
  intro e s ⟨hacc, _, _⟩
  refine ⟨timerPhase_of_stopped, fun hdt => ?running, timerPhase_frame e s⟩
  case running =>
    obtain ⟨hlow, hhigh⟩ := wholeTicks_spec (add_nonneg hacc (millisValue_nonneg e))
    refine ⟨wholeTicks (s.dtAcc + millisValue e), hlow, hhigh, fun hle => ?saturates, fun hlt => ?decays⟩
    case saturates =>
      rw [timerPhase_of_dt_le_ticks hdt hle]
      exact ⟨rfl, rfl⟩
    case decays =>
      rw [timerPhase_of_ticks_lt_dt hdt hlt]
      exact ⟨toNat_sub_ofNat_of_lt hlt, rfl⟩

/-! ### MOVED and LOADD (R211, R212) -/

/-- A timer write followed by `next` changes DT, DTacc and PC, and nothing else. -/
theorem setTimer_advance_frame (d : Byte) (acc : Rat) (s : State) :
    (s.setTimer d acc).advance.pc = s.pc + 2#16 ∧
      { (s.setTimer d acc).advance with dt := s.dt, dtAcc := s.dtAcc, pc := s.pc } = s ∧
      ∀ a, (s.setTimer d acc).advance.byteAt a = s.byteAt a :=
  ⟨rfl, rfl, fun _ => rfl⟩

/-- Settles O42: MOVED is the register write of DT, LOADD the timer write of the register with an empty accumulator. -/
theorem delayTimerMoves : Obligations.DelayTimerMoves := by
  refine fun x s => ⟨⟨_, rfl, ?moved⟩, ⟨_, rfl, ?loadd⟩⟩
  case moved => exact ⟨getV_setV_advance x s.dt s, setV_advance_frame x s.dt s⟩
  case loadd => exact ⟨rfl, rfl, setTimer_advance_frame (s.getV x) 0 s⟩

end Sys2Proof.Machine
end

section
/-! PROOFS. The host's operations (spec/70_reset_and_hazards.md R350 to R358): reset and loadRom keep the invariant as a step does, so every
sequence of them does; what loadRom leaves in memory, and that the boot state fetches the image's first word. -/

open Sys2Proof Sys2Proof.Machine

namespace Sys2Proof.Machine

variable {s t u : State} {bytes : List Byte}

/-! ### loadRom (R352) -/

theorem font_length : font.length = 80 := rfl

/-- The memory `loadRom` leaves: the font at FONT_BASE, then the image at 0x200. -/
def loadedMemory (m : Memory) (bytes : List Byte) : Memory :=
  Memory.storeBytes (Memory.storeBytes m fontBase.toNat font) Config.romBase bytes

theorem loadRom_of_too_long (h : Config.romMax < bytes.length) : s.loadRom bytes = s.raise (.romTooLarge bytes.length) :=
  if_pos h

theorem loadRom_of_fits (h : bytes.length ≤ Config.romMax) : s.loadRom bytes = s.setMem (loadedMemory s.mem bytes) :=
  if_neg (not_lt.mpr h)

/-- The font and an image of at most 3232 bytes lie inside memory, the font below the image. -/
theorem font_and_image_fit (h : bytes.length ≤ Config.romMax) :
    fontBase.toNat + font.length ≤ Config.romBase ∧ Config.romBase + bytes.length ≤ Config.memSize := by
  have hmax : Config.romMax = 3232 := rfl
  have hbase : Config.romBase = 0x200 := rfl
  have hsize : Config.memSize = 4096 := rfl
  have hfont : fontBase.toNat = 0 := rfl
  rw [font_length]
  omega

section
variable {m : Memory} (hm : m.wf = true) (hfit : bytes.length ≤ Config.romMax)
include hm hfit

theorem wf_store_font : (m.storeBytes fontBase.toNat font).wf = true := by
  obtain ⟨hfont, himage⟩ := font_and_image_fit hfit
  exact Memory.wf_storeBytes font hm (by omega)

theorem loadedMemory_wf : (loadedMemory m bytes).wf = true :=
  Memory.wf_storeBytes bytes (wf_store_font hm hfit) (font_and_image_fit hfit).2

theorem readByte_loadedMemory_image {k : Nat} (hk : k < bytes.length) :
    (loadedMemory m bytes).readByte (Config.romBase + k) = bytes.getD k 0#8 :=
  Memory.readByte_storeBytes_inside bytes (wf_store_font hm hfit) (font_and_image_fit hfit).2 hk

theorem readByte_loadedMemory_font {k : Nat} (hk : k < font.length) :
    (loadedMemory m bytes).readByte (fontBase.toNat + k) = font.getD k 0#8 := by
  obtain ⟨hfont, himage⟩ := font_and_image_fit hfit
  rw [loadedMemory, Memory.readByte_storeBytes_outside bytes _ (by omega)]
  exact Memory.readByte_storeBytes_inside font hm (by omega) hk

end

theorem readByte_loadedMemory_outside (m : Memory) {a : Nat} (hfont : a < fontBase.toNat ∨ fontBase.toNat + font.length ≤ a)
    (himage : a < Config.romBase ∨ Config.romBase + bytes.length ≤ a) : (loadedMemory m bytes).readByte a = m.readByte a := by
  rw [loadedMemory, Memory.readByte_storeBytes_outside bytes _ himage, Memory.readByte_storeBytes_outside font _ hfont]

/-- Settles O52: the test of `loadRom`, and the two stores read byte by byte. -/
theorem loadRomPlacesImage : Obligations.LoadRomPlacesImage := by
  refine fun bytes s hm => ⟨fun hlong => ?too_long, fun hfit => ⟨_, congrArg Host.Outcome.next (loadRom_of_fits hfit), ?fits⟩⟩
  case too_long => exact congrArg Host.Outcome.next (loadRom_of_too_long hlong)
  case fits =>
    exact ⟨fun k => readByte_loadedMemory_font hm hfit, fun k => readByte_loadedMemory_image hm hfit,
      fun a => readByte_loadedMemory_outside s.mem, rfl⟩

/-! ### Every operation keeps the invariant (R358) -/

theorem hostReset_inv (s : State) (seed : Option Int) : (s.hostReset seed).Inv := by
  obtain ⟨hmem, hstack, htimer, hsound⟩ := resetWith_inv seed
  exact ⟨hmem, hstack, htimer, hsound⟩

theorem loadRom_keeps_inv (bytes : List Byte) (hs : s.Inv) : (s.loadRom bytes).Inv := by
  by_cases hfit : bytes.length ≤ Config.romMax
  · rw [loadRom_of_fits hfit]
    exact ⟨loadedMemory_wf hs.mem hfit, hs.stack, hs.timer, hs.sound⟩
  · rw [loadRom_of_too_long (not_le.mp hfit)]
    exact raise_keeps_inv _ hs

theorem hostAct_keeps_inv {op : HostOp} (h : hostAct op s = .next t) (hs : s.Inv) : t.Inv := by
  cases op with
  | reset seed => cases h; exact hostReset_inv s seed
  | loadRom bytes => cases h; exact loadRom_keeps_inv bytes hs
  | step e => exact stepWith_keeps_inv h hs

theorem hostAct_next (op : HostOp) (s : State) : ∃ t, hostAct op s = .next t := by
  cases op with
  | reset seed => exact ⟨_, rfl⟩
  | loadRom bytes => exact ⟨_, rfl⟩
  | step e => exact stepWith_next e s

theorem hostRun_cons {op : HostOp} (ops : List HostOp) (h : hostAct op s = .next u) :
    hostRun (op :: ops) s = hostRun ops u := by
  rw [hostRun, h]

/-- Settles O17: by induction on the operations; each answers a next state, in which the invariant still holds. -/
theorem hostRunKeepsInvariant : Obligations.HostRunKeepsInvariant := by
  intro ops
  induction ops with
  | nil =>
    intro s t hs h
    cases h
    exact hs
  | cons op ops ih =>
    intro s t hs h
    obtain ⟨u, hu⟩ := hostAct_next op s
    rw [hostRun_cons ops hu] at h
    exact ih u t (hostAct_keeps_inv hu hs) h

/-! ### The boot state (R354, R355) -/

theorem boot_of_fits (seed : Option Int) (h : bytes.length ≤ Config.romMax) :
    State.boot seed bytes = (State.resetWith seed).setMem (loadedMemory [] bytes) :=
  loadRom_of_fits h

theorem boot_running (seed : Option Int) (hfit : bytes.length ≤ Config.romMax) : (State.boot seed bytes).Running := by
  rw [boot_of_fits seed hfit]
  exact resetWith_running seed

theorem boot_inv (seed : Option Int) (bytes : List Byte) : (State.boot seed bytes).Inv :=
  loadRom_keeps_inv bytes (resetWith_inv seed)

/-- PC is reset to where the image begins, so the first fetch reads the image's first two bytes. -/
theorem boot_fetch (seed : Option Int) (hfit : bytes.length ≤ Config.romMax) (htwo : 2 ≤ bytes.length) :
    (State.boot seed bytes).fetch = .ok (wordOfBytes (bytes.getD 0 0#8) (bytes.getD 1 0#8)) := by
  have hempty : Memory.wf [] = true := rfl
  have hfirst : (loadedMemory [] bytes).readByte Config.romBase = bytes.getD 0 0#8 :=
    readByte_loadedMemory_image hempty hfit (k := 0) (by omega)
  have hsecond : (loadedMemory [] bytes).readByte (Config.romBase + 1) = bytes.getD 1 0#8 :=
    readByte_loadedMemory_image hempty hfit (k := 1) (by omega)
  have hpc : ((State.resetWith seed).setMem (loadedMemory [] bytes)).pc.toNat = Config.romBase := rfl
  have hroom : Config.romBase + 1 < Config.memSize := by decide
  rw [boot_of_fits seed hfit, State.fetch_ok _ (hpc ▸ hroom), hpc, State.wordAt, State.byteAt_setMem, State.byteAt_setMem,
    hfirst, hsecond]

/-- Settles O53: booting is a reset whose memory alone is written, and PC is where the image begins. -/
theorem bootFetchesFirstRomWord : Obligations.BootFetchesFirstRomWord := by
  intro seed b0 b1 rest hlen
  have hfit : (b0 :: b1 :: rest).length ≤ Config.romMax := hlen
  exact ⟨boot_running seed hfit, boot_inv seed _, boot_fetch seed hfit (Nat.le_add_left 2 rest.length)⟩

end Sys2Proof.Machine
end

section
/-! PROOFS. Index register and memory transfer (spec/47_index_memory.md R230 to R234), and the stubs (spec/48_stubs.md R250 to R253): a transfer
inside memory is one store of bytes or one load of registers, a transfer that leaves memory is the fault of its lowest address outside. -/

open Sys2Proof Sys2Proof.Machine

namespace Sys2Proof.Machine

variable {s : State}

/-! ### LOADI and ADDI (R230, R231) -/

/-- A write of I followed by `next` changes I and PC, and nothing else. -/
theorem setI_advance_frame (w : Word) (s : State) :
    (s.setI w).advance.pc = s.pc + 2#16 ∧ { (s.setI w).advance with i := s.i, pc := s.pc } = s ∧
      ∀ a, (s.setI w).advance.byteAt a = s.byteAt a :=
  ⟨rfl, rfl, fun _ => rfl⟩

theorem toNat_regOperand16 (s : State) (x : RegIdx) : (s.regOperand16 x).toNat = (s.getV x).toNat :=
  BitVec.toNat_setWidth_of_le (by decide)

/-- Settles O44: both are a write of I, LOADI of the address, ADDI of the sum modulo 65536. -/
theorem indexLoads : Obligations.IndexLoads := by
  refine fun nnn x s => ⟨⟨_, rfl, State.addrOperand_toNat nnn, setI_advance_frame _ s⟩,
    ⟨_, rfl, ?sum, setI_advance_frame _ s⟩⟩
  case sum => rw [State.advance_i, State.setI_i, BitVec.toNat_add, toNat_regOperand16]

/-! ### BCD (R232) -/

/-- BCD stores three bytes: they fit exactly when I + 2 is in memory. -/
theorem bcdDigits_fit_iff (b : Byte) : s.i.toNat + (bcdDigits b).length ≤ Config.memSize ↔ s.i.toNat + 2 ≤ 0xFFF := by
  rw [show (bcdDigits b).length = 3 from rfl, show Config.memSize = 4096 from rfl]
  omega

theorem exec_bcd_of_fits (x : RegIdx) (hfit : s.i.toNat + 2 ≤ 0xFFF) :
    exec (.bcd x) s = .next (s.setMem (Memory.storeBytes s.mem s.i.toNat (bcdDigits (s.getV x)))).advance :=
  congrArg (complete s) (storeAtIndex_ok s (.inr ((bcdDigits_fit_iff _).mpr hfit)))

/-- The three digits of a byte are its decimal expansion, the last two below ten. -/
theorem bcdDigits_spec (b : Byte) :
    b.toNat = 100 * ((bcdDigits b).getD 0 0#8).toNat + 10 * ((bcdDigits b).getD 1 0#8).toNat +
        ((bcdDigits b).getD 2 0#8).toNat ∧
      ((bcdDigits b).getD 1 0#8).toNat ≤ 9 ∧ ((bcdDigits b).getD 2 0#8).toNat ≤ 9 := by
  have hb := b.isLt
  simp only [bcdDigits, List.getD_cons_zero, List.getD_cons_succ, BitVec.toNat_ofNat]
  omega

/-- Settles O45: the three bytes stored are the digits, whose expansion is the register. -/
theorem bcdStoresDigits : Obligations.BcdStoresDigits := by
  intro x s hm hfit
  have hdigit {k : Nat} (hk : k < 3) :
      (Memory.storeBytes s.mem s.i.toNat (bcdDigits (s.getV x))).readByte (s.i.toNat + k) =
        (bcdDigits (s.getV x)).getD k 0#8 :=
    Memory.readByte_storeBytes_inside _ hm ((bcdDigits_fit_iff _).mpr hfit) hk
  obtain ⟨hsum, htens, hones⟩ := bcdDigits_spec (s.getV x)
  rw [← hdigit (k := 0) (by omega), ← hdigit (k := 1) (by omega), ← hdigit (k := 2) (by omega)] at hsum
  rw [← hdigit (by omega)] at htens hones
  exact ⟨_, exec_bcd_of_fits x hfit, hsum, htens, hones, fun _ ha => Memory.readByte_storeBytes_outside _ s.mem ha, rfl, rfl⟩

/-! ### STOR and READ (R233, R234) -/

/-- Settles O46: each register at its offset from I, and no byte outside the block stored. -/
theorem storStoresRegisters : Obligations.StorStoresRegisters := by
  intro x s hm hfit
  have hexec := exec_stor_of_fits hfit
  refine ⟨_, hexec, fun k hk => exec_stor_byteAt hm hfit hexec hk, fun a ha => ?outside, rfl, rfl⟩
  case outside =>
    exact Memory.readByte_storeBytes_outside _ s.mem (by rw [State.regsUpTo_length]; omega)

/-- The bytes READ loads: `x + 1` of them, from I on. -/
def bytesAtIndex (s : State) (x : RegIdx) : List Byte := (List.range (x.toNat + 1)).map fun k => s.byteAt (s.i.toNat + k)

theorem bytesAtIndex_length (s : State) (x : RegIdx) : (bytesAtIndex s x).length = x.toNat + 1 := by simp [bytesAtIndex]

theorem bytesAtIndex_getD (s : State) {x : RegIdx} {k : Nat} (hk : k ≤ x.toNat) :
    (bytesAtIndex s x).getD k 0#8 = s.byteAt (s.i.toNat + k) := by
  simp [bytesAtIndex, List.getD_eq_getElem?_getD, Nat.lt_succ_of_le hk]

theorem exec_read_of_fits {x : RegIdx} (hfit : s.i.toNat + x.toNat ≤ 0xFFF) :
    exec (.read x) s = .next (s.loadRegs 0 (bytesAtIndex s x)).advance :=
  congrArg (complete s) (loadFromIndex_ok s x (Nat.succ_le_succ hfit))

/-- The registers after READ: V0 to VX hold the bytes from I on, the others are as before. -/
theorem getV_loadRegs_bytesAtIndex (s : State) (x k : RegIdx) : (s.loadRegs 0 (bytesAtIndex s x)).getV k =
    if k.toNat ≤ x.toNat then s.byteAt (s.i.toNat + k.toNat) else s.getV k := by
  have hx := x.isLt
  have hlen := bytesAtIndex_length s x
  rw [State.getV_loadRegs _ s 0 (by omega)]
  by_cases hk : k.toNat ≤ x.toNat
  · rw [if_pos (by omega), if_pos hk, Nat.sub_zero, bytesAtIndex_getD s hk]
  · rw [if_neg (by omega), if_neg hk]

/-- Loading registers changes the registers alone. -/
theorem loadRegs_frame (bytes : List Byte) : ∀ (s : State) (k : Nat), { s.loadRegs k bytes with v := s.v } = s := by
  induction bytes with
  | nil => exact fun _ _ => rfl
  | cons b bytes ih =>
    intro s k
    exact congrArg (fun t : State => { t with v := s.v }) (ih (s.setV (BitVec.ofNat 4 k) b) (k + 1))

/-- Settles O47: the loaded registers read one by one; the load writes registers alone. -/
theorem readLoadsRegisters : Obligations.ReadLoadsRegisters := by
  intro x s hfit
  refine ⟨_, exec_read_of_fits hfit, fun k hk => ?loaded, fun k hk => ?others, ?pc, ?frame, fun a => ?memory⟩
  case loaded => rw [State.getV_advance, getV_loadRegs_bytesAtIndex, if_pos hk]
  case others => rw [State.getV_advance, getV_loadRegs_bytesAtIndex, if_neg (not_le.mpr hk)]
  case pc => rw [State.advance_pc, State.loadRegs_pc]
  case frame => exact congrArg (fun t : State => { t with pc := s.pc }) (loadRegs_frame (bytesAtIndex s x) s 0)
  case memory => rw [State.byteAt_advance, State.byteAt_loadRegs]

/-! ### Transfers that leave memory (R324, R329) -/

theorem exec_draw_of_outside (x y : RegIdx) {n : Nibble} (hn : n ≠ 0#4) (hout : 0x1000 < s.i.toNat + n.toNat) :
    exec (.draw x y n) s = .next (s.raise (.addressOutOfRange (max s.i.toNat 0x1000))) :=
  congrArg (complete s) (drawSprite_error s x y n hn hout)

theorem exec_bcd_of_outside (x : RegIdx) (hout : 0xFFF < s.i.toNat + 2) :
    exec (.bcd x) s = .next (s.raise (.addressOutOfRange (max s.i.toNat 0x1000))) := by
  have hlen : Config.memSize < s.i.toNat + (bcdDigits (s.getV x)).length := by
    rw [← not_le, bcdDigits_fit_iff]
    omega
  exact congrArg (complete s) (storeAtIndex_error s (List.cons_ne_nil _ _) hlen)

theorem exec_stor_of_outside {x : RegIdx} (hout : 0xFFF < s.i.toNat + x.toNat) :
    exec (.stor x) s = .next (s.raise (.addressOutOfRange (max s.i.toNat 0x1000))) := by
  have hlen : Config.memSize < s.i.toNat + (s.regsUpTo x).length := by
    rw [s.regsUpTo_length x, show Config.memSize = 4096 from rfl]
    omega
  have hne : s.regsUpTo x ≠ [] := List.ne_nil_of_length_pos (by rw [s.regsUpTo_length x]; omega)
  exact congrArg (complete s) (storeAtIndex_error s hne hlen)

theorem exec_read_of_outside {x : RegIdx} (hout : 0xFFF < s.i.toNat + x.toNat) :
    exec (.read x) s = .next (s.raise (.addressOutOfRange (max s.i.toNat 0x1000))) :=
  congrArg (complete s) (loadFromIndex_error s x (Nat.succ_lt_succ hout))

/-- Settles O48: the four transfers that leave memory, each the fault taken in the state before. -/
theorem indexAccessAboveMemoryIsLatched : Obligations.IndexAccessAboveMemoryIsLatched := fun x y _ _ =>
  ⟨exec_draw_of_outside x y, exec_bcd_of_outside x, exec_stor_of_outside, exec_read_of_outside⟩

/-! ### The stubs (R250 to R253) -/

/-- Settles O50: each stub is `next` alone. -/
theorem stubsOnlyAdvance : Obligations.StubsOnlyAdvance := by
  refine ⟨rfl, rfl, rfl, rfl, fun x s i hi => ⟨s.advance, ?stub, rfl, rfl, fun _ => rfl⟩⟩
  case stub =>
    simp only [List.mem_cons, List.not_mem_nil, or_false] at hi
    obtain rfl | rfl | rfl | rfl := hi
    all_goals rfl

end Sys2Proof.Machine
end

section
/-! PROOFS. Faults (spec/60_exceptions.md R320 to R329): what a step that latches one leaves, that it is never a finished run's, and
exactly when a step latches one. -/

open Sys2Proof Sys2Proof.Machine

namespace Sys2Proof.Machine

variable {s t u : State} {i : Instr}

/-! ### What a faulting step leaves (R327, R328) -/

/-- How a running state's step ends: with no fault, or with one taken in the state before it. -/
theorem stepWith_cases {e : Millis} (hrun : s.Running) (h : stepWith e s = .next t) :
    t.fault = none ∨ ∃ f, t = s.raise f := by
  obtain ⟨u, hu⟩ := fetchExecute_next (timerPhase e s)
  rw [stepWith_of_running e hrun, hu] at h
  cases hf : u.fault with
  | none =>
    rw [rollback_none hf] at h
    cases h
    exact .inl hf
  | some f =>
    rw [rollback_some hf] at h
    cases h
    exact .inr ⟨f, rfl⟩

/-- Settles O13: of the two ends of a step, the one with a latched fault. -/
theorem faultLeavesEverythingElse : Obligations.FaultLeavesEverythingElse := by
  intro e s t f hrun h hf
  obtain hnone | ⟨g, rfl⟩ := stepWith_cases hrun h
  · simp [hnone] at hf
  · cases hf
    rfl

theorem takeElapsed_running (hrun : s.Running) : s.takeElapsed.2.Running := by
  obtain ⟨e, rest, _, hq⟩ | ⟨_, hq⟩ := takeElapsed_cases s <;> rw [hq] <;> exact hrun

/-- Settles O18: a running state is not finished, so that a fault taken in it is none of a finished run. -/
theorem stepsNeverFinishAFaultedRun : Obligations.StepsNeverFinishAFaultedRun := by
  intro s t hs h
  cases hend : s.ended with
  | true =>
    rw [step_of_ended hend] at h
    cases h
    exact hs
  | false =>
    have hrun := (ended_eq_false_iff s).mp hend
    rw [step_of_running hrun] at h
    intro hfault
    obtain hnone | ⟨f, rfl⟩ := stepWith_cases (takeElapsed_running hrun) h
    · exact absurd hnone hfault
    · exact (takeElapsed_running hrun).2

/-! ### The fetched word (R321) -/

theorem fetch_of_pc_le (hpc : s.pc.toNat ≤ 0xFFE) : s.fetch = .ok (wordIn s s.pc.toNat) :=
  s.fetch_ok (Nat.add_lt_add_right (Nat.lt_succ_of_le hpc) 1)

/-- An illegal word is latched in the state before the timer phase. -/
theorem stepWith_of_illegal (e : Millis) (hrun : s.Running) (hpc : s.pc.toNat ≤ 0xFFE)
    (hill : illegalWord (wordIn s s.pc.toNat)) :
    stepWith e s = .next (s.raise (.unknownOpcode (wordIn s s.pc.toNat) s.pc)) := by
  have hfetch := (fetch_timerPhase e s).trans (fetch_of_pc_le hpc)
  rw [stepWith_of_running e hrun, fetchExecute_of_decode_error hfetch (decode_eq_unmatched_iff_illegalWord.mpr hill),
    rollback_some (State.raise_fault _ _), timerPhase_pc]

/-- Settles O10: the cycle on a fetched word that the decoder rejects. -/
theorem unknownOpcodeIsLatched : Obligations.UnknownOpcodeIsLatched := fun e _ hrun hpc hill =>
  stepWith_of_illegal e hrun hpc hill

/-- A word is illegal, or decodes to an instruction. -/
theorem illegalWord_or_decodes (op : Word) : illegalWord op ∨ ∃ i, decode op = .ok i := by
  rw [← decode_eq_unmatched_iff_illegalWord]
  cases hrow : findRow op with
  | none => exact .inl (by rw [decode, hrow])
  | some r => exact .inr ⟨_, by rw [decode, hrow]⟩

/-! ### When an instruction raises a fault (R320, R325, R329) -/

/-- In each of the cases listed the instruction's fault is taken. -/
theorem exec_of_raises (h : execRaises i s) : ∃ f, exec i s = .next (s.raise f) := by
  obtain ⟨nnn, rfl, hfull⟩ | ⟨x, y, n, rfl, hn, hout⟩ | ⟨x, rfl, hout⟩ | ⟨x, rfl, hout⟩ | ⟨x, rfl, hout⟩ := h
  · exact ⟨.stackOverflow s.sp s.pc, callOverflowIsLatched nnn s hfull⟩
  · exact ⟨_, exec_draw_of_outside x y hn hout⟩
  · exact ⟨_, exec_bcd_of_outside x hout⟩
  · exact ⟨_, exec_stor_of_outside hout⟩
  · exact ⟨_, exec_read_of_outside hout⟩

/-- RTS on a stack pointer in its window raises no fault: the popped slot lies in memory. -/
theorem exec_rts_fault (hs : s.StackOk) (h : exec .rts s = .next t) : t.fault = s.fault := by
  have hslot := popSlot_in_memory hs
  by_cases hend : popSlot s = minStack ∧ wordIn s (popSlot s).toNat = 0#16
  · rw [exec_rts_of_sentinel hslot hend] at h
    cases h
    rfl
  · rw [exec_rts_of_entry hslot hend] at h
    cases h
    rfl

/-- In no other case does an instruction touch the fault latch. -/
theorem exec_fault_of_not_raises (hs : s.StackOk) (hno : ¬ execRaises i s) (h : exec i s = .next t) : t.fault = s.fault := by
  cases i
  case rts => exact exec_rts_fault hs h
  case call nnn =>
    have hroom : s.sp.toNat + 2 ≤ maxStack.toNat := by simpa [execRaises] using hno
    rw [exec_call_of_room nnn hroom] at h
    cases h
    rfl
  case draw x y n =>
    have hfit : n = 0#4 ∨ s.i.toNat + n.toNat ≤ Config.memSize := by
      by_contra hout
      rw [not_or, not_le] at hout
      exact hno (.inr (.inl ⟨x, y, n, rfl, hout⟩))
    rw [exec_draw_of_fits hfit] at h
    cases h
    rfl
  case bcd x =>
    have hfit : s.i.toNat + 2 ≤ 0xFFF := by simpa [execRaises] using hno
    rw [exec_bcd_of_fits x hfit] at h
    cases h
    rfl
  case stor x =>
    have hfit : s.i.toNat + x.toNat ≤ 0xFFF := by simpa [execRaises] using hno
    rw [exec_stor_of_fits hfit] at h
    cases h
    rfl
  case read x =>
    have hfit : s.i.toNat + x.toNat ≤ 0xFFF := by simpa [execRaises] using hno
    rw [exec_read_of_fits hfit] at h
    cases h
    simp
  case rand x nn => cases h; exact randomByte_fault s
  case ske x nn | skne x nn => cases h; exact State.skipIf_fault s _
  case skre x y | skrne x y => cases h; exact State.skipIf_fault s _
  all_goals cases h; rfl

/-- On a state with SP in its window and no fault, an instruction latches one exactly in the cases listed. -/
theorem exec_faults_iff (hs : s.StackOk) (hnone : s.fault = none) (h : exec i s = .next t) :
    t.fault ≠ none ↔ execRaises i s := by
  by_cases hraises : execRaises i s
  · obtain ⟨f, hf⟩ := exec_of_raises hraises
    rw [hf] at h
    cases h
    exact iff_of_true (Option.some_ne_none f) hraises
  · rw [exec_fault_of_not_raises hs hraises h]
    exact iff_of_false (not_not.mpr hnone) hraises

/-! ### When a step latches a fault -/

theorem rollback_faults_iff {s0 : State} (h : rollback s0 (.next u) = .next t) : t.fault ≠ none ↔ u.fault ≠ none := by
  cases hf : u.fault with
  | none =>
    rw [rollback_none hf] at h
    cases h
    rw [hf]
  | some f =>
    rw [rollback_some hf] at h
    cases h
    exact iff_of_true (Option.some_ne_none f) (Option.some_ne_none f)

/-- The cases listed speak of SP and I alone, which the timer phase keeps. -/
theorem execRaises_timerPhase (e : Millis) (c : Bool) : execRaises i ((timerPhase e s).setFbu c) ↔ execRaises i s := by
  simp only [execRaises, State.setFbu_sp, State.setFbu_i, timerPhase_sp, timerPhase_i]

/-- A step on a word that decodes latches a fault exactly in the cases listed for its instruction. -/
theorem stepWith_faults_iff_execRaises {e : Millis} (hrun : s.Running) (hs : s.StackOk) (hpc : s.pc.toNat ≤ 0xFFE)
    (hd : decode (wordIn s s.pc.toNat) = .ok i) (h : stepWith e s = .next t) : t.fault ≠ none ↔ execRaises i s := by
  have hstack : ((timerPhase e s).setFbu false).StackOk := by simpa [State.StackOk] using hs
  have hnone : ((timerPhase e s).setFbu false).fault = none := by simpa using hrun.1
  obtain ⟨u, hu⟩ := exec_next i ((timerPhase e s).setFbu false)
  rw [stepWith_of_decode_ok e hrun (fetch_of_pc_le hpc) hd, hu] at h
  rw [rollback_faults_iff h, exec_faults_iff hstack hnone hu, execRaises_timerPhase]

/-- Settles O14: along the cycle, the fetch, the decoder and the instruction each decide their own case. -/
theorem stepFaultsExactlyWhen : Obligations.StepFaultsExactlyWhen := by
  intro e s t hrun hs h
  by_cases hpc : s.pc.toNat ≤ 0xFFE
  · obtain hill | ⟨i, hd⟩ := illegalWord_or_decodes (wordIn s s.pc.toNat)
    · rw [stepWith_of_illegal e hrun hpc hill] at h
      cases h
      exact iff_of_true (Option.some_ne_none _) (.inr (.inl hill))
    · rw [stepWith_faults_iff_execRaises hrun hs hpc hd h]
      have hlegal : ¬ illegalWord (wordIn s s.pc.toNat) := by simp [← decode_eq_unmatched_iff_illegalWord, hd]
      simp [hpc, hlegal, hd]
  · rw [fetchAboveMemoryIsLatched e s hrun (not_le.mp hpc)] at h
    cases h
    exact iff_of_true (Option.some_ne_none _) (.inl (not_le.mp hpc))

end Sys2Proof.Machine
end

section
/-! PROOFS. The assembler (spec/49_assembler.md R260 to R292): a line's word decodes to the line, pass 1 counts what pass 2 emits, a label is the
pointer at its line, and an error is the first line's that fails. -/

open Sys2Proof Sys2Proof.Machine

namespace Sys2Proof.Assembler

/-! ### Instruction lines (R292) -/

/-- Settles O54: the line's term is well-formed, its instruction stands for it, and the decoder inverts the encoding. -/
theorem assembledLineDecodes : Obligations.AssembledLineDecodes := by
  intro labels m rest bs h
  obtain ⟨ops, vs, i, hops, hlen, hvs, hwf, hi, rfl⟩ := emitInstruction_ok h
  obtain ⟨j, hj, hterm⟩ := exists_toInstr_of_wellFormed hwf
  obtain rfl : j = i := Option.some_inj.mp (hj.symm.trans hi)
  exact ⟨ops, vs, encode j, j, hops, hlen, hvs, rfl, decode_encode j, hterm⟩

/-! ### The two passes (R260, R285) -/

/-- A source that assembles passed pass 1, and pass 2 with the labels it left. -/
theorem assembleSource_ok {text : List Char} {bytes : List Byte} (h : assembleSource text = .ok bytes) :
    ∃ ptr labels, resolve (sourceLines text) Config.romBase [] = .ok (ptr, labels) ∧
      emit labels (sourceLines text) = .ok bytes := by
  rw [assembleSource] at h
  split at h
  · cases h
  · next ptr labels hr => exact ⟨ptr, labels, hr, h⟩

/-- A source that does not assemble failed in pass 1, or in pass 2 with the labels pass 1 left. -/
theorem assembleSource_error {text : List Char} {e : Stop} (h : assembleSource text = .error e) :
    resolve (sourceLines text) Config.romBase [] = .error e ∨
      ∃ ptr labels, resolve (sourceLines text) Config.romBase [] = .ok (ptr, labels) ∧
        emit labels (sourceLines text) = .error e := by
  rw [assembleSource] at h
  split at h
  · next e' hr => cases h; exact .inl hr
  · next ptr labels hr => exact .inr ⟨ptr, labels, hr, h⟩

/-- Settles O55: both passes count the widths of the lines. -/
theorem imageLengthMatchesPointer : Obligations.ImageLengthMatchesPointer := by
  intro text bytes h
  obtain ⟨ptr, labels, hresolve, hemit⟩ := assembleSource_ok h
  have hlen := emit_length (sourceLines text) hemit
  have hptr : ptr = 0x200 + bytes.length := hlen ▸ resolve_pointer (sourceLines text) hresolve
  exact ⟨hlen, labels, hptr ▸ hresolve⟩

/-! ### Labels (R267, R269) -/

/-- Pass 1 over a source is pass 1 over its first lines, then over the others with the pointer and the labels left. -/
theorem resolve_append {after : List Line} {r : Nat × LabelTable} (before : List Line) : ∀ {ptr : Nat} {labels : LabelTable},
    resolve (before ++ after) ptr labels = .ok r →
    ∃ p t, resolve before ptr labels = .ok (p, t) ∧ resolve after p t = .ok r := by
  induction before with
  | nil => exact fun h => ⟨_, _, rfl, h⟩
  | cons l before ih =>
    intro ptr labels h
    rw [List.cons_append, resolve] at h
    split at h
    · cases h
    · next q u hq =>
      obtain ⟨p, t, hbefore, hafter⟩ := ih h
      exact ⟨p, t, by rw [resolve, hq]; exact hbefore, hafter⟩

/-- Pass 1 from a label line on leaves the label at the pointer of its line. -/
theorem findLabel_of_resolve_label {l : Line} {after : List Line} {name : List Char} {ptr p : Nat} {labels t : LabelTable}
    (hl : l.cls = .label name) (h : resolve (l :: after) ptr labels = .ok (p, t)) : findLabel t name = some ptr := by
  rw [resolve] at h
  split at h
  · cases h
  · next q u hq => exact resolve_keeps after h ((resolveLine_labels hq).2 name hl)

/-- Settles O56: the pointer at the label's line is 0x200 plus the widths before it. -/
theorem labelIsAddressOfNextByte : Obligations.LabelIsAddressOfNextByte := by
  intro before after l name ptr labels hl h
  obtain ⟨p, t, hbefore, hafter⟩ := resolve_append before h
  rw [findLabel_of_resolve_label hl hafter, resolve_pointer before hbefore]

/-! ### Errors (R283) -/

/-- A source's lines carry their own places, counted from 1. -/
theorem sourceLines_number {text : List Char} {before after : List Line} {n : Nat} {t : List Char}
    (h : sourceLines text = before ++ ⟨n, t⟩ :: after) : n = before.length + 1 :=
  (numberFrom_number _ h).trans (Nat.add_comm _ _)

/-- Settles O57: the pass that fails fails first at the line it names. -/
theorem assemblyErrorNamesItsLine : Obligations.AssemblyErrorNamesItsLine := by
  intro text k n lineText h
  obtain hresolve | ⟨ptr, labels, hresolve, hemit⟩ := assembleSource_error h
  · obtain ⟨before, after, ptr, labels, hlines, hbefore, hline⟩ := resolve_error _ hresolve
    exact ⟨before, after, hlines, sourceLines_number hlines, .inl ⟨ptr, labels, hbefore, hline⟩⟩
  · obtain ⟨before, after, bytes, hlines, hbefore, hline⟩ := emit_error _ hemit
    exact ⟨before, after, hlines, sourceLines_number hlines, .inr ⟨ptr, labels, bytes, hresolve, hbefore, hline⟩⟩

/-! ### The worked example (R289) -/

/-- Settles O58: the assembler run on the example. -/
theorem workedExampleAssembles : Obligations.WorkedExampleAssembles := by
  unfold Obligations.WorkedExampleAssembles
  decide

end Sys2Proof.Assembler
end
